-- ==== Sys2Proof/Word.lean ====
section
/-! DEFINITION. The word types of WLDEC: every datum is an unsigned number of a fixed width (R6, R8, R21, R51). -/

namespace Sys2Proof

/-- An entry of BLK, META, ADD or ADD2 (R21). -/
abbrev Byte := BitVec 8

/-- Half a byte: one cell's share of a nibble-packed memory (R33). -/
abbrev Nibble := BitVec 4

/-- A command word, a packed-stream word or a histogram counter (R50, R21). -/
abbrev Word := BitVec 64

end Sys2Proof
end

