-- ==== Sys2Proof/Config.lean ====
section
/-! DEFINITION. What is fixed for one WLDEC block: the constants of R5, the eight memories of R21, and the values the
spec leaves open (HIST_CELLS and the contents of memory at power-up). -/

namespace Sys2Proof

/-- The eight memories of R21. META is called `metadata`, the document's name for it, since the other is a word of Lean's. -/
inductive MemId where
  | blk | metadata | add | add2 | pk | pal | idx | hist
  deriving DecidableEq, Repr

/-- The entry width of a memory, in bits (R21). -/
abbrev MemId.width : MemId → Nat
  | .blk => 8
  | .metadata => 8
  | .add => 8
  | .add2 => 8
  | .pk => 64
  | .pal => 24
  | .idx => 16
  | .hist => 64

/-- The bytes one entry takes where a host maps it onto byte addresses (R32, R35). -/
def MemId.bytes (m : MemId) : Nat := m.width / 8

namespace Config

/-- CELLS_V0 (R5): cells of a v0 section. -/
abbrev cellsV0 : Nat := 32768

/-- CELLS (R5): cells of a v2 or v13 section, and the values one unpack produces. -/
abbrev cells : Nat := 4096

/-- HEIGHT_V0 (R5): cells per column of a v0 section. -/
abbrev heightV0 : Nat := 128

/-- HEIGHT (R5): layers of a v2 or v13 section. -/
abbrev height : Nat := 16

/-- COLUMNS (R5): (x,z) columns of a section, so cells per layer. -/
abbrev columns : Nat := 256

/-- IDLIMIT_V0 (R5): the row length of DEC0. -/
abbrev idlimitV0 : Nat := 4096

/-- W_MIN (R5): the least index width. -/
abbrev wMin : Nat := 4

/-- W_MAX (R5): the greatest index width that produces output. -/
abbrev wMax : Nat := 16

/-- PK_WORDS (R5): entries of PK, the greatest number of words an admitted unpack reads (R107). -/
abbrev pkWords : Nat := 1024

/-- BLK_SIZE (R5). -/
abbrev blkSize : Nat := 32768

/-- META_SIZE (R5). -/
abbrev metaSize : Nat := 16384

/-- ADD_SIZE (R5). -/
abbrev addSize : Nat := 2048

/-- ADD2_SIZE (R5). -/
abbrev add2Size : Nat := 2048

/-- IDX_ENTRIES (R5). -/
abbrev idxEntries : Nat := 4096

/-- PAL_ENTRIES (R5). -/
abbrev palEntries : Nat := 65536

/-- One less than HIST_CELLS of the block that comes out of reset; open (R5, D11, U18; log 2). -/
opaque histCellsPred : Nat

/-- HIST_CELLS of the block that comes out of reset: open, 1 or more (R5, D11; log 2). -/
def histCells : Nat := histCellsPred + 1

/-- FREE VALUE: what entry `i` of memory `m` holds before anything has written it, for power-up number `draw`
(R45, U3's "any value": one draw per entry at power-up, stable until the entry is written; log 1). -/
opaque powerUp : Nat → (m : MemId) → Nat → BitVec m.width

end Config

end Sys2Proof
end

