-- ==== Sys2Proof/Syntax.lean ====
section
/-! DEFINITION. The eight commands of WLDEC command set 1 (R53, R59), one constructor per row of spec/opcode_table.json.
Operands stand in the order of the assembler (R59) and have the widths of their fields (R51). -/

namespace Sys2Proof

/-- A command with the operands R55 gives it. -/
inductive Instr where
  /-- `DEC0`: decode a flat v0 section and count it (R81). -/
  | dec0
  /-- `DEC2 ysec, idlimit`: decode an extended v2 section and count it (R90). -/
  | dec2 (ysec : BitVec 8) (idlimit : BitVec 24)
  /-- `DEC13.WC ysec, idlimit, maxpal`: decode a palette v13 section packed with carry, and count it (R124). -/
  | dec13Wc (ysec : BitVec 8) (idlimit : BitVec 24) (maxpal : BitVec 16)
  /-- `DEC13.NC ysec, idlimit, maxpal`: the same for a section packed without carry (R125). -/
  | dec13Nc (ysec : BitVec 8) (idlimit : BitVec 24) (maxpal : BitVec 16)
  /-- `UNPK.WC w`: unpack 4096 values of w bits, leftover bits carried (R103). -/
  | unpkWc (w : BitVec 5)
  /-- `UNPK.NC w`: unpack 4096 values of w bits, leftover top bits of a word dropped (R104). -/
  | unpkNc (w : BitVec 5)
  /-- `WSEL maxpal`: select the index width for a palette (R121). -/
  | wsel (maxpal : BitVec 16)
  /-- `PACC ysec, idlimit, maxpal`: resolve the indices in IDX through the palette and count them (R123). -/
  | pacc (ysec : BitVec 8) (idlimit : BitVec 24) (maxpal : BitVec 16)
  deriving DecidableEq, Repr

end Sys2Proof
end

