-- ==== Sys2Proof/WellFormed.lean ====
section
/-! DEFINITION. Which commands are legal. The operand widths are in the types; the one further check is the width floor of
UNPK (R57): w of 0 to 3 is reserved, w of 17 to 31 is legal. -/

namespace Sys2Proof

/-- The width operand of an UNPK is admitted (R57). -/
abbrev widthAdmitted (w : BitVec 5) : Prop := Config.wMin ≤ w.toNat

/-- The command is legal (R54, R57). -/
def Instr.wellFormed : Instr → Bool
  | .dec0 => true
  | .dec2 _ _ => true
  | .dec13Wc _ _ _ => true
  | .dec13Nc _ _ _ => true
  | .unpkWc w => decide (widthAdmitted w)
  | .unpkNc w => decide (widthAdmitted w)
  | .wsel _ => true
  | .pacc _ _ _ => true

end Sys2Proof
end

