-- ==== Sys2Proof/Decode.lean ====
section
/-! DEFINITION. The command word: its fields (R51), decode (R61, total, rejecting by name), the encoder and the
assembler's operand rules (R59), and the match/mask table of R54. -/

namespace Sys2Proof

/-- Why decode rejects a word (R61): the first three fault causes of R140. -/
inductive DecodeError where
  /-- op is 0 or 7 to 15 (R56 case a). -/
  | illegalOpcode
  /-- rsv, or a field the command does not use, is not 0 (R56 case b). -/
  | reservedField
  /-- w of an UNPK is 0 to 3 (R57). -/
  | widthBelowMin
  deriving DecidableEq, Repr

/-- The fields of format C (R51); the six without `rsv` are the operand latches of R11. -/
structure Fields where
  op : BitVec 4
  cm : BitVec 1
  w : BitVec 5
  rsv : BitVec 6
  ysec : BitVec 8
  maxpal : BitVec 16
  idlimit : BitVec 24
  deriving DecidableEq, Repr

/-- The fields of a word, each taken from its bits as they stand (R51, R52). -/
def fieldsOf (x : Word) : Fields where
  op := x.extractLsb' 60 4
  cm := x.extractLsb' 59 1
  w := x.extractLsb' 54 5
  rsv := x.extractLsb' 48 6
  ysec := x.extractLsb' 40 8
  maxpal := x.extractLsb' 24 16
  idlimit := x.extractLsb' 0 24

/-- The word with the given fields (R51). -/
def wordOf (f : Fields) : Word :=
  f.op ++ f.cm ++ f.w ++ f.rsv ++ f.ysec ++ f.maxpal ++ f.idlimit

/-- R61's second test: go on only if every field that must be 0 is 0. -/
def requireZero (unusedAreZero : Bool) (r : Except DecodeError Instr) : Except DecodeError Instr :=
  if unusedAreZero then r else .error .reservedField

/-- R61's third test: the width floor of UNPK. -/
def requireWidth (w : BitVec 5) (i : Instr) : Except DecodeError Instr :=
  if w.toNat < Config.wMin then .error .widthBelowMin else .ok i

/-- Decode (R61): opcode, then reserved and unused fields (R55), then the width floor of UNPK (R57).
`cm` selects the carry convention for op 3 and 4 (R53) and must be 0 elsewhere. -/
def decode (x : Word) : Except DecodeError Instr :=
  let f := fieldsOf x
  match f.op.toNat with
  | 1 => requireZero (f.cm == 0 && f.w == 0 && f.rsv == 0 && f.ysec == 0 && f.maxpal == 0 && f.idlimit == 0)
      (.ok .dec0)
  | 2 => requireZero (f.cm == 0 && f.w == 0 && f.rsv == 0 && f.maxpal == 0)
      (.ok (.dec2 f.ysec f.idlimit))
  | 3 => requireZero (f.w == 0 && f.rsv == 0)
      (.ok (if f.cm == 0 then .dec13Wc f.ysec f.idlimit f.maxpal else .dec13Nc f.ysec f.idlimit f.maxpal))
  | 4 => requireZero (f.rsv == 0 && f.ysec == 0 && f.maxpal == 0 && f.idlimit == 0)
      (requireWidth f.w (if f.cm == 0 then .unpkWc f.w else .unpkNc f.w))
  | 5 => requireZero (f.cm == 0 && f.w == 0 && f.rsv == 0 && f.ysec == 0 && f.idlimit == 0)
      (.ok (.wsel f.maxpal))
  | 6 => requireZero (f.cm == 0 && f.w == 0 && f.rsv == 0)
      (.ok (.pacc f.ysec f.idlimit f.maxpal))
  | _ => .error .illegalOpcode

/-- The fields a command is encoded with: its operands, and 0 in every field it does not use (R53, R55). -/
def fieldsFor : Instr → Fields
  | .dec0 => ⟨1, 0, 0, 0, 0, 0, 0⟩
  | .dec2 ysec idlimit => ⟨2, 0, 0, 0, ysec, 0, idlimit⟩
  | .dec13Wc ysec idlimit maxpal => ⟨3, 0, 0, 0, ysec, maxpal, idlimit⟩
  | .dec13Nc ysec idlimit maxpal => ⟨3, 1, 0, 0, ysec, maxpal, idlimit⟩
  | .unpkWc w => ⟨4, 0, w, 0, 0, 0, 0⟩
  | .unpkNc w => ⟨4, 1, w, 0, 0, 0, 0⟩
  | .wsel maxpal => ⟨5, 0, 0, 0, 0, maxpal, 0⟩
  | .pacc ysec idlimit maxpal => ⟨6, 0, 0, 0, ysec, maxpal, idlimit⟩

/-- The command word of a command (R51, R53, R55). -/
def encode (i : Instr) : Word := wordOf (fieldsFor i)

/-- The match and mask of a command's row of the opcode table (R54). -/
def matchMask : Instr → Word × Word
  | .dec0 => (0x1000000000000000, 0xFFFFFFFFFFFFFFFF)
  | .dec2 _ _ => (0x2000000000000000, 0xFFFF00FFFF000000)
  | .dec13Wc _ _ _ => (0x3000000000000000, 0xFFFF000000000000)
  | .dec13Nc _ _ _ => (0x3800000000000000, 0xFFFF000000000000)
  | .unpkWc _ => (0x4000000000000000, 0xF83FFFFFFFFFFFFF)
  | .unpkNc _ => (0x4800000000000000, 0xF83FFFFFFFFFFFFF)
  | .wsel _ => (0x5000000000000000, 0xFFFFFF0000FFFFFF)
  | .pacc _ _ _ => (0x6000000000000000, 0xFFFF000000000000)

/-- An assembler operand that fits its field; one that does not is an assembly error, never a truncation (R59). -/
def operand (width n : Nat) : Option (BitVec width) :=
  if n < 2 ^ width then some (BitVec.ofNat width n) else none

/-- A line of assembler, its mnemonic and its operands in the order of R59 (no pseudo-instructions, R60); none is an
assembly error. -/
def assemble (mnemonic : String) (operands : List Nat) : Option Instr :=
  match mnemonic, operands with
  | "DEC0", [] => some .dec0
  | "DEC2", [y, l] => do some (.dec2 (← operand 8 y) (← operand 24 l))
  | "DEC13.WC", [y, l, m] => do some (.dec13Wc (← operand 8 y) (← operand 24 l) (← operand 16 m))
  | "DEC13.NC", [y, l, m] => do some (.dec13Nc (← operand 8 y) (← operand 24 l) (← operand 16 m))
  | "UNPK.WC", [w] => do some (.unpkWc (← operand 5 w))
  | "UNPK.NC", [w] => do some (.unpkNc (← operand 5 w))
  | "WSEL", [m] => do some (.wsel (← operand 16 m))
  | "PACC", [y, l, m] => do some (.pacc (← operand 8 y) (← operand 24 l) (← operand 16 m))
  | _, _ => none

/-- What the decoder reads from a command whose bits are `w`, as spec/opcode_table.json numbers them; bits above `nbits`
are 0. The table's numbering is the word's own (R51). -/
def decodeTableWord (nbits w : Nat) : Option Instr :=
  match decode (BitVec.ofNat 64 (w % 2 ^ nbits)) with
  | .ok i => some i
  | .error _ => none

end Sys2Proof
end

