-- ==== Sys2Proof/Machine/State.lean ====
section
/-! DEFINITION. The state of one WLDEC block (R10), the host actions it is offered (R44), the reasons a step can stop, and
the state after reset (R24, R160). -/

namespace Sys2Proof.Machine

/-- MODE, 1 bit (R13). -/
inductive Mode where
  /-- 0: the block accepts a command. -/
  | idle
  /-- 1: a fault has been taken; every later command is discarded. -/
  | fault
  deriving DecidableEq, Repr

/-- CAUSE, 4 bits (R14): the codes of R140, in order 0 to 5. No other code is ever written (log 12). -/
inductive Cause where
  | none
  | illegalOpcode
  | reservedField
  | widthBelowMin
  | palOob
  | histOob
  deriving DecidableEq, Repr

/-- An access of a host port that offers byte addresses (R32, R35). `byteAddr` counts from the memory's entry 0; where
that entry lies on a bus is HOST_MAP, which no rule depends on (R37; log 5). -/
inductive BusAccess where
  | write (m : MemId) (byteAddr : Nat) (bytes : List Byte)
  | read (m : MemId) (byteAddr : Nat) (size : Nat)
  deriving DecidableEq, Repr

/-- What the host may do, each as one step (R44). -/
inductive HostAction where
  /-- `HostWrite(S, i, v)`. -/
  | write (m : MemId) (i : Nat) (v : Word)
  /-- `HostRead(S, i)`. -/
  | read (m : MemId) (i : Nat)
  /-- `HostWrite(CSR, n, v)`; number 0 issues the command word `v`. -/
  | writeCsr (n : Nat) (v : Word)
  /-- `HostRead(CSR, n)`. -/
  | readCsr (n : Nat)
  /-- `Reset`. -/
  | reset
  /-- A memory access through byte addresses (R35). -/
  | bus (a : BusAccess)
  deriving DecidableEq, Repr

/-- What the host port returns for a read (R44): an entry or register as a number, or, through byte addresses, its bytes,
the one of least weight first (R32). -/
inductive HostAnswer where
  | value (v : Word)
  | bytes (bs : List Byte)
  deriving DecidableEq, Repr

/-- A memory: its written entries as (entry number, value) pairs, entry numbers strictly rising; an entry never written is
not listed (R45; logs 1 and 7). -/
abbrev Memory (width : Nat) := List (Nat × BitVec width)

/-- The canonical form of a memory: entry numbers strictly rising. -/
abbrev Memory.wf {width : Nat} (mem : Memory width) : Prop := mem.Pairwise fun a b => a.1 < b.1

/-- The state of one block: the seven status registers and the eight memories of R10, the size of the bank (R5), and three
fields of the model's own (`draw`, `pending`, `answer`). -/
structure State where
  /-- MODE (R13). -/
  mode : Mode
  /-- CAUSE (R14). -/
  cause : Cause
  /-- UW, sticky (R15). -/
  uw : Bool
  /-- WREG (R16). -/
  wreg : BitVec 5
  /-- OUTCNT (R17). -/
  outcnt : BitVec 13
  /-- FINFO (R18). -/
  finfo : BitVec 15
  /-- FVAL (R18). -/
  fval : BitVec 64
  /-- BLK (R21). -/
  blk : Memory 8
  /-- META (R21). -/
  metadata : Memory 8
  /-- ADD (R21). -/
  add : Memory 8
  /-- ADD2 (R21). -/
  add2 : Memory 8
  /-- PK (R21). -/
  pk : Memory 64
  /-- PAL (R21). -/
  pal : Memory 24
  /-- IDX (R21, R22). -/
  idx : Memory 16
  /-- HIST (R21, R23). -/
  hist : Memory 64
  /-- HIST_CELLS, the number of counters in HIST; nothing writes it (R5, D11; log 2). -/
  histCells : Nat
  /-- The model's own: which power-up the contents of never-written entries come from; nothing writes it (log 1). -/
  draw : Nat
  /-- The model's own: the host actions not yet taken, oldest first (R44, R164; log 3). -/
  pending : List HostAction
  /-- The model's own: what the host port returned for the latest read (R44; log 4). -/
  answer : Option HostAnswer
  deriving DecidableEq, Repr

/-- Reasons a step stops with a fault of the MODEL. There is none: the block's own faults (R140) are recorded in MODE,
CAUSE, FINFO and FVAL and are next states (R143), and no access of the block leaves a memory (R8; log 8). -/
inductive Fault where
  deriving DecidableEq, Repr

/-- Reasons a step gives its input no meaning. All but the first are raised by the host port alone, never by a command. -/
inductive Refusal where
  /-- Raised by exec for a command that has no meaning yet; safe. No arm raises it. -/
  | notModelled (mnemonic : String)
  /-- Raised by a host read or write whose index is outside its memory: not an action of the spec (R44, U7); safe. -/
  | hostIndexOutsideMemory
  /-- Raised by a host write of a value wider than the entry: not an action of the spec (R44, U7); safe. -/
  | hostValueTooWide
  /-- Raised by a byte-addressed access that is not one whole entry at a multiple of its size (R35); safe. -/
  | busAccessNotOneEntry
  deriving DecidableEq, Repr

/-- The state after the first reset following power-up (R24, R160): the seven registers 0, no entry of any memory written,
no host action offered yet. HIST_CELLS is open (log 2). -/
def State.reset : State where
  mode := .idle
  cause := .none
  uw := false
  wreg := 0
  outcnt := 0
  finfo := 0
  fval := 0
  blk := []
  metadata := []
  add := []
  add2 := []
  pk := []
  pal := []
  idx := []
  hist := []
  histCells := Config.histCells
  draw := 0
  pending := []
  answer := none

end Sys2Proof.Machine
end

