-- ==== Sys2Proof/Machine/Ops.lean ====
section
/-! DEFINITION. The named operations over the state: reading and writing a memory entry (R31), taking a fault (R143),
leaving the fault state by reset (R144, R160), and the test of MODE that comes before any command runs (R61, R144). -/

namespace Sys2Proof.Machine

/-- The result of one step of the machine. -/
abbrev Result := Host.Outcome State Fault Refusal

/-- The value a memory lists for entry `i`; none if nothing has written that entry. -/
def Memory.get? {width : Nat} : Memory width → Nat → Option (BitVec width)
  | [], _ => none
  | (j, v) :: rest, i => if i = j then some v else Memory.get? rest i

/-- The memory with entry `i` holding `v`, entry numbers kept rising. -/
def Memory.set {width : Nat} : Memory width → Nat → BitVec width → Memory width
  | [], i, v => [(i, v)]
  | (j, u) :: rest, i, v =>
    if i < j then (i, v) :: (j, u) :: rest
    else if i = j then (i, v) :: rest
    else (j, u) :: Memory.set rest i v

/-- The written entries of a memory. -/
def State.cells (s : State) : (m : MemId) → Memory m.width
  | .blk => s.blk
  | .metadata => s.metadata
  | .add => s.add
  | .add2 => s.add2
  | .pk => s.pk
  | .pal => s.pal
  | .idx => s.idx
  | .hist => s.hist

/-- The state with other written entries in one memory; nothing else changes (no space aliases another, R30). -/
def State.setCells (s : State) : (m : MemId) → Memory m.width → State
  | .blk, c => { s with blk := c }
  | .metadata, c => { s with metadata := c }
  | .add, c => { s with add := c }
  | .add2, c => { s with add2 := c }
  | .pk, c => { s with pk := c }
  | .pal, c => { s with pal := c }
  | .idx, c => { s with idx := c }
  | .hist, c => { s with hist := c }

/-- The number of entries of a memory (R5, R21). -/
def State.sizeOf (s : State) : MemId → Nat
  | .blk => Config.blkSize
  | .metadata => Config.metaSize
  | .add => Config.addSize
  | .add2 => Config.add2Size
  | .pk => Config.pkWords
  | .pal => Config.palEntries
  | .idx => Config.idxEntries
  | .hist => s.histCells

/-- `MemRead(S, i)` (R31): the entry as last written; for an entry never written, a value nothing is known of (R45, U3;
log 1). -/
def memRead (m : MemId) (i : Nat) (s : State) : BitVec m.width :=
  match (s.cells m).get? i with
  | some v => v
  | none => Config.powerUp s.draw m i

/-- `MemWrite(S, i, v)` (R31). -/
def memWrite (m : MemId) (i : Nat) (v : BitVec m.width) (s : State) : State :=
  s.setCells m ((s.cells m).set i v)

/-- `raise Fault(cause, info, val)` (R143): MODE, CAUSE, FINFO and FVAL are written and nothing else. That the command ends
is seen to by `forCells`. -/
def raise (cause : Cause) (info : BitVec 15) (val : Word) (s : State) : State :=
  { s with mode := .fault, cause := cause, finfo := info, fval := val }

/-- The fault cause a rejected word takes (R56, R57, R140). -/
def causeOf : DecodeError → Cause
  | .illegalOpcode => .illegalOpcode
  | .reservedField => .reservedField
  | .widthBelowMin => .widthBelowMin

/-- `Reset` (R160), the only way out of MODE = 1 (R144): the seven registers are cleared, every memory is left as it was. -/
def takeReset (s : State) : State :=
  { s with mode := .idle, cause := .none, uw := false, wreg := 0, outcnt := 0, finfo := 0, fval := 0 }

/-- Run a command's rule in MODE = 0; in MODE = 1 nothing executes and nothing changes (R144, R145; log 11). -/
def whenIdle (s : State) (rule : State → State) : Result :=
  .next (if s.mode = .fault then s else rule s)

end Sys2Proof.Machine
end

