-- ==== Sys2Proof/Machine/Flags.lean ====
section
/-! DEFINITION. What the commands leave in UW, WREG and OUTCNT (R15, R16, R17), and the registers as the host reads them
(R19). -/

namespace Sys2Proof.Machine

/-- An unpack with w > 16: UW is set, OUTCNT is cleared, nothing else happens (R101). -/
def flagUnsupportedWidth (s : State) : State := { s with uw := true, outcnt := 0 }

/-- An unpack that produced output (R17, R100). -/
def setOutcntFull (s : State) : State := { s with outcnt := BitVec.ofNat 13 Config.cells }

/-- `WREG <- w` (R121, R124, R125). -/
def setWreg (w : Nat) (s : State) : State := { s with wreg := BitVec.ofNat 5 w }

/-- MODE as its bit (R13). -/
def Mode.bit : Mode → BitVec 1
  | .idle => 0
  | .fault => 1

/-- CAUSE as its code (R14, R140). -/
def Cause.code : Cause → BitVec 4
  | .none => 0
  | .illegalOpcode => 1
  | .reservedField => 2
  | .widthBelowMin => 3
  | .palOob => 4
  | .histOob => 5

/-- STATUS (R19): bit 0 MODE, bit 1 UW, bits 3:2 zero, bits 7:4 CAUSE, the rest zero. -/
def statusWord (s : State) : Word :=
  (0 : BitVec 56) ++ s.cause.code ++ (0 : BitVec 2) ++ BitVec.ofBool s.uw ++ s.mode.bit

/-- The value of a control and status register as the host reads it (R19). CMD and the numbers above 5 read 0. -/
def csrRead (n : Nat) (s : State) : Word :=
  match n with
  | 1 => statusWord s
  | 2 => s.wreg.setWidth 64
  | 3 => s.outcnt.setWidth 64
  | 4 => s.finfo.setWidth 64
  | 5 => s.fval
  | _ => 0

end Sys2Proof.Machine
end

