-- ==== Sys2Proof/Machine/Operands.lean ====
section
/-! DEFINITION. How operands are put together: nibbles (R33), identifiers (R80), histogram addresses (R71, R78), the slices
of a packed word (R34), and the byte order of a host that maps entries onto bytes (R32). -/

namespace Sys2Proof.Machine

/-- `lo4(b)`, bits 3 to 0 (R33; log 10). -/
def lo4 (b : Byte) : Nibble := b.extractLsb' 0 4

/-- `hi4(b)`, bits 7 to 4 (R33; log 10). -/
def hi4 (b : Byte) : Nibble := b.extractLsb' 4 4

/-- The nibble of a packed byte that belongs to cell `c`: the low one if `c` is even, the high one if odd (R33, R80). -/
def cellNibble (c : Nat) (b : Byte) : Nibble := if c % 2 = 0 then lo4 b else hi4 b

/-- The flat identifier, `{BLK byte, META nibble}` (R80). -/
def flatId (blk : Byte) (metaNibble : Nibble) : BitVec 12 := blk ++ metaNibble

/-- The extended identifier, `{ADD2 nibble, ADD nibble, BLK byte, META nibble}` (R80, R90). -/
def extendedId (add2Nibble addNibble : Nibble) (blk : Byte) (metaNibble : Nibble) : BitVec 20 :=
  add2Nibble ++ addNibble ++ blk ++ metaNibble

/-- `HistAddr(layer, idlimit, id)`, over the naturals (R71). -/
def histAddr (layer idlimit id : Nat) : Nat := layer * idlimit + id

/-- The layer of a v2 or v13 cell (R78). -/
def sectionLayer (ysec : BitVec 8) (yLocal : Nat) : Nat := ysec.toNat * Config.height + yLocal

/-- `word[31:0]` (R34). -/
def lowHalf (word : Word) : BitVec 32 := word.extractLsb' 0 32

/-- `word[63:32]` (R34). -/
def highHalf (word : Word) : BitVec 32 := word.extractLsb' 32 32

/-- The `w` lowest bits of a word as an IDX entry, "masked to that width" (R22, R103, R104). -/
def maskedValue (w : Nat) (x : Word) : BitVec 16 := BitVec.ofNat 16 (x.toNat % 2 ^ w)

/-- The bytes of an entry as a host lays them out, the byte of weight 2^0 first (R32). -/
def littleEndian : Nat → Nat → List Byte
  | 0, _ => []
  | n + 1, v => BitVec.ofNat 8 v :: littleEndian n (v / 256)

/-- The number whose bytes, least weight first, are given (R32). -/
def ofLittleEndian : List Byte → Nat
  | [] => 0
  | b :: rest => b.toNat + 256 * ofLittleEndian rest

end Sys2Proof.Machine
end

