-- ==== Sys2Proof/Machine/Histogram.lean ====
section
/-! DEFINITION. The histogram accumulator bank (HAB): the increment (R72), and the loop over cell ordinals that every
counting command is (R12, R146). -/

namespace Sys2Proof.Machine

/-- `HistInc(a, c)` (R72): the one bound tested is the bank's own (R74), before the counter is read; the counter wraps
modulo 2^64. No identifier is compared with the row length (R73). -/
def histInc (a c : Nat) (s : State) : State :=
  if s.histCells ≤ a then raise .histOob (BitVec.ofNat 15 c) (BitVec.ofNat 64 a) s
  else memWrite .hist a (memRead .hist a s + 1) s

/-- `n` cells from ordinal `c` on, in increasing order, until one of them faults (R12, R143, R146). -/
def forCells (cell : Nat → State → State) : (n c : Nat) → State → State
  | 0, _, s => s
  | n + 1, c, s =>
    let t := cell c s
    if t.mode = .fault then t else forCells cell n (c + 1) t

end Sys2Proof.Machine
end

