-- ==== Sys2Proof/Machine/Nibble.lean ====
section
/-! DEFINITION. The nibble/byte extractor (NBX) and its commands: DEC0 (R81) and DEC2 (R90). -/

namespace Sys2Proof.Machine

/-- The address at which DEC0 counts cell `c` = y + column x 128 (R12, R81): layer y, row length 4096. -/
def dec0Addr (c : Nat) (s : State) : Nat :=
  let y := c % Config.heightV0
  let m := memRead .metadata (c / 2) s
  let id := flatId (memRead .blk c s) (cellNibble c m)
  histAddr y Config.idlimitV0 id.toNat

/-- One cell of DEC0. -/
def dec0Cell (c : Nat) (s : State) : State := histInc (dec0Addr c s) c s

/-- DEC0 (R81). -/
def execDec0 (s : State) : Result :=
  whenIdle s (forCells dec0Cell Config.cellsV0 0)

/-- The address at which DEC2 counts cell `c` = idx x 2 + k (R12, R90): layer ysec x 16 + c div 256, row length idlimit. -/
def dec2Addr (ysec : BitVec 8) (idlimit : BitVec 24) (c : Nat) (s : State) : Nat :=
  let idx := c / 2
  let a := memRead .add idx s
  let a2 := memRead .add2 idx s
  let m := memRead .metadata idx s
  let id := extendedId (cellNibble c a2) (cellNibble c a) (memRead .blk c s) (cellNibble c m)
  histAddr (sectionLayer ysec (c / Config.columns)) idlimit.toNat id.toNat

/-- One cell of DEC2. -/
def dec2Cell (ysec : BitVec 8) (idlimit : BitVec 24) (c : Nat) (s : State) : State :=
  histInc (dec2Addr ysec idlimit c s) c s

/-- DEC2 (R90). -/
def execDec2 (ysec : BitVec 8) (idlimit : BitVec 24) (s : State) : Result :=
  whenIdle s (forCells (dec2Cell ysec idlimit) Config.cells 0)

end Sys2Proof.Machine
end

