-- ==== Sys2Proof/Machine/Unpack.lean ====
section
/-! DEFINITION. The bitstream unpacker (BSU) and its commands: UNPK.WC (R103) and UNPK.NC (R104). The unpack procedures
are also the second phase of DEC13. -/

namespace Sys2Proof.Machine

/-- The state of the unpacker while an unpack runs (R20), with the output buffer it fills. -/
structure Bsu where
  /-- ACC, the bits read and not yet taken (with-carry only). -/
  acc : Word
  /-- NBITS, how many of them there are (with-carry only). -/
  nbits : Nat
  /-- N, the values produced so far. -/
  n : Nat
  /-- K, the index of the next PK word. -/
  k : Nat
  /-- IDX as written so far. -/
  idx : Memory 16
  deriving DecidableEq, Repr

/-- Every unpack starts with ACC = 0, NBITS = 0, N = 0, K = 0 (R20). -/
def bsuStart (idx : Memory 16) : Bsu := { acc := 0, nbits := 0, n := 0, k := 0, idx := idx }

/-- `IDX[N] <- v; N <- N + 1` (R103, R104). -/
def bsuEmit (v : BitVec 16) (b : Bsu) : Bsu := { b with idx := b.idx.set b.n v, n := b.n + 1 }

/-- Take the lowest `w` bits of ACC as the next value (R103). -/
def wcTake (w : Nat) (b : Bsu) : Bsu :=
  { bsuEmit (maskedValue w b.acc) b with acc := b.acc >>> w, nbits := b.nbits - w }

/-- `while NBITS >= w`: take values, at most `fuel` of them, until the 4096th (R103). Each take leaves NBITS smaller, so
fuel NBITS is enough (R108; log 13). -/
def wcDrain (w : Nat) : (fuel : Nat) → Bsu → Bsu
  | 0, b => b
  | fuel + 1, b => if w ≤ b.nbits ∧ b.n ≠ Config.cells then wcDrain w fuel (wcTake w b) else b

/-- Feed one half word above the leftover bits, then take what fits (R103). Nothing is fed once the 4096th value is out. -/
def wcFeed (w : Nat) (half : BitVec 32) (b : Bsu) : Bsu :=
  if b.n = Config.cells then b
  else
    let fed : Bsu := { b with acc := b.acc ||| (half.setWidth 64 <<< b.nbits), nbits := b.nbits + 32 }
    wcDrain w fed.nbits fed

/-- One word with carry: the low half, then the high half (R34, R103). -/
def wcWord (w : Nat) (word : Word) (b : Bsu) : Bsu :=
  wcFeed w (highHalf word) (wcFeed w (lowHalf word) { b with k := b.k + 1 })

/-- One word without carry, from value `j` of it on: `count` values of `w` bits, bit 0 upward, until the 4096th; the bits
above them are dropped (R104). -/
def ncTake (w : Nat) (word : Word) : (count j : Nat) → Bsu → Bsu
  | 0, _, b => b
  | count + 1, j, b =>
    if b.n = Config.cells then b
    else ncTake w word count (j + 1) (bsuEmit (maskedValue w (word >>> (j * w))) b)

/-- One word without carry: its 64 div w whole values (R104). -/
def ncWord (w : Nat) (word : Word) (b : Bsu) : Bsu :=
  ncTake w word (64 / w) 0 { b with k := b.k + 1 }

/-- The outer extraction loop the conventions share: read PK[K], take its values, stop at the 4096th value (R100). No
admitted unpack reads more than 1024 words, so fuel 1024 is enough (R107, R108; log 13). -/
def unpackWords (takeWord : Word → Bsu → Bsu) (pk : Nat → Word) : (fuel : Nat) → Bsu → Bsu
  | 0, b => b
  | fuel + 1, b => if b.n = Config.cells then b else unpackWords takeWord pk fuel (takeWord (pk b.k) b)

/-- Unpack the words of PK into IDX, then set OUTCNT (R100). -/
def unpackInto (takeWord : Word → Bsu → Bsu) (s : State) : State :=
  let b := unpackWords takeWord (fun k => memRead .pk k s) Config.pkWords (bsuStart s.idx)
  setOutcntFull { s with idx := b.idx }

/-- `UnpackWC(w)` (R103), for a width of 4 to 16. -/
def unpackWc (w : Nat) (s : State) : State := unpackInto (wcWord w) s

/-- `UnpackNC(w)` (R104), for a width of 4 to 16. -/
def unpackNc (w : Nat) (s : State) : State := unpackInto (ncWord w) s

/-- What both UNPK do with their width operand: above 16 no output and no fault (R101); below 4 the fault that decode takes
for the same word (R57, R102; log 11); else the unpack. -/
def unpkRule (command : Instr) (w : BitVec 5) (unpack : Nat → State → State) (s : State) : State :=
  if w.toNat < Config.wMin then raise .widthBelowMin 0 (encode command) s
  else if Config.wMax < w.toNat then flagUnsupportedWidth s
  else unpack w.toNat s

/-- UNPK.WC (R103). -/
def execUnpkWc (w : BitVec 5) (s : State) : Result :=
  whenIdle s (unpkRule (.unpkWc w) w unpackWc)

/-- UNPK.NC (R104). -/
def execUnpkNc (w : BitVec 5) (s : State) : Result :=
  whenIdle s (unpkRule (.unpkNc w) w unpackNc)

end Sys2Proof.Machine
end

