-- ==== Sys2Proof/Machine/Palette.lean ====
section
/-! DEFINITION. The palette lookup unit (PLU) and its commands: DEC13.WC (R124), DEC13.NC (R125), WSEL (R121), PACC (R123). -/

namespace Sys2Proof.Machine

/-- `while 2^w < m + 1: w <- w + 1`, at most `fuel` times (R120). -/
def widthSearch (m : Nat) : (fuel w : Nat) → Nat
  | 0, w => w
  | fuel + 1, w => if 2 ^ w < m + 1 then widthSearch m fuel (w + 1) else w

/-- `WidthSel(m)` (R120): the search starts at 4 and ends after at most 12 increments. -/
def widthSel (maxpal : BitVec 16) : Nat := widthSearch maxpal.toNat 12 Config.wMin

/-- The address at which cell `i` of PACC is counted when its local index `li` is in the palette (R123). -/
def paccAddr (ysec : BitVec 8) (idlimit : BitVec 24) (i li : Nat) (s : State) : Nat :=
  histAddr (sectionLayer ysec (i / Config.columns)) idlimit.toNat (memRead .pal li s).toNat

/-- One cell of PACC: `PalLookup` (R122), which faults before the palette is read, then the increment. -/
def paccCell (ysec : BitVec 8) (idlimit : BitVec 24) (maxpal : BitVec 16) (i : Nat) (s : State) : State :=
  let li := (memRead .idx i s).toNat
  if maxpal.toNat < li then raise .palOob (BitVec.ofNat 15 i) (BitVec.ofNat 64 li) s
  else histInc (paccAddr ysec idlimit i li s) i s

/-- `PalAcc()` (R123). -/
def palAcc (ysec : BitVec 8) (idlimit : BitVec 24) (maxpal : BitVec 16) : State → State :=
  forCells (paccCell ysec idlimit maxpal) Config.cells 0

/-- The three phases of a DEC13, each complete before the next begins; the unpack takes its width from WREG (R124, R125). -/
def dec13Rule (ysec : BitVec 8) (idlimit : BitVec 24) (maxpal : BitVec 16) (unpack : Nat → State → State)
    (s : State) : State :=
  let selected := setWreg (widthSel maxpal) s
  palAcc ysec idlimit maxpal (unpack selected.wreg.toNat selected)

/-- DEC13.WC (R124). -/
def execDec13Wc (ysec : BitVec 8) (idlimit : BitVec 24) (maxpal : BitVec 16) (s : State) : Result :=
  whenIdle s (dec13Rule ysec idlimit maxpal unpackWc)

/-- DEC13.NC (R125). -/
def execDec13Nc (ysec : BitVec 8) (idlimit : BitVec 24) (maxpal : BitVec 16) (s : State) : Result :=
  whenIdle s (dec13Rule ysec idlimit maxpal unpackNc)

/-- WSEL (R121). -/
def execWsel (maxpal : BitVec 16) (s : State) : Result :=
  whenIdle s (setWreg (widthSel maxpal))

/-- PACC (R123). -/
def execPacc (ysec : BitVec 8) (idlimit : BitVec 24) (maxpal : BitVec 16) (s : State) : Result :=
  whenIdle s (palAcc ysec idlimit maxpal)

end Sys2Proof.Machine
end

