-- ==== Sys2Proof/Machine/Dispatch.lean ====
section
/-! DEFINITION. One arm per command, each a call of its meaning (R53). -/

namespace Sys2Proof.Machine

/-- The meaning of a command whose word has passed decode (R61). -/
def exec (i : Instr) (s : State) : Host.Outcome State Fault Refusal :=
  match i with
  | .dec0 => Sys2Proof.Machine.execDec0 s
  | .dec2 ysec idlimit => Sys2Proof.Machine.execDec2 ysec idlimit s
  | .dec13Wc ysec idlimit maxpal => Sys2Proof.Machine.execDec13Wc ysec idlimit maxpal s
  | .dec13Nc ysec idlimit maxpal => Sys2Proof.Machine.execDec13Nc ysec idlimit maxpal s
  | .unpkWc w => Sys2Proof.Machine.execUnpkWc w s
  | .unpkNc w => Sys2Proof.Machine.execUnpkNc w s
  | .wsel maxpal => Sys2Proof.Machine.execWsel maxpal s
  | .pacc ysec idlimit maxpal => Sys2Proof.Machine.execPacc ysec idlimit maxpal s

end Sys2Proof.Machine
end

