-- ==== Sys2Proof/Machine/HostPort.lean ====
section
/-! DEFINITION. The host port (R44): issuing a command word (R61), reading and writing the memories and registers, reset,
and accesses through byte addresses (R32, R35). All of it works in MODE = 1 as in MODE = 0, but for the issue (R145). -/

namespace Sys2Proof.Machine

/-- Issue of a command word (R61): discarded in MODE = 1 (R145), else decoded, and executed or refused by a fault whose
FVAL is the word (R140). -/
def issue (x : Word) (s : State) : Result :=
  if s.mode = .fault then .next s
  else
    match decode x with
    | .error e => .next (raise (causeOf e) 0 x s)
    | .ok i => exec i s

/-- `HostWrite(S, i, v)` (R44); an index outside the memory or a value that does not fit is refused (U7). -/
def hostWrite (m : MemId) (i : Nat) (v : Word) (s : State) : Result :=
  if s.sizeOf m ≤ i then .refused .hostIndexOutsideMemory
  else if 2 ^ m.width ≤ v.toNat then .refused .hostValueTooWide
  else .next (memWrite m i (v.setWidth m.width) s)

/-- `HostRead(S, i)` (R44): returns the entry and changes nothing of the block. -/
def hostRead (m : MemId) (i : Nat) (s : State) : Result :=
  if s.sizeOf m ≤ i then .refused .hostIndexOutsideMemory
  else .next { s with answer := some (.value ((memRead m i s).setWidth 64)) }

/-- `HostWrite(CSR, n, v)` (R44): number 0 issues `v`; a write of any other register is ignored (R19). -/
def hostWriteCsr (n : Nat) (v : Word) (s : State) : Result :=
  if n = 0 then issue v s else .next s

/-- `HostRead(CSR, n)` (R19, R44). -/
def hostReadCsr (n : Nat) (s : State) : Result :=
  .next { s with answer := some (.value (csrRead n s)) }

/-- A byte-addressed access is one whole entry at a multiple of its size (R35). -/
abbrev wholeEntry (m : MemId) (byteAddr size : Nat) : Prop := size = m.bytes ∧ byteAddr % m.bytes = 0

/-- An access through byte addresses: every one but a whole entry is refused (R35); bytes are little-endian (R32). -/
def busAccess (a : BusAccess) (s : State) : Result :=
  match a with
  | .write m byteAddr bytes =>
    if wholeEntry m byteAddr bytes.length then
      hostWrite m (byteAddr / m.bytes) (BitVec.ofNat 64 (ofLittleEndian bytes)) s
    else .refused .busAccessNotOneEntry
  | .read m byteAddr size =>
    if wholeEntry m byteAddr size then
      if s.sizeOf m ≤ byteAddr / m.bytes then .refused .hostIndexOutsideMemory
      else .next { s with answer := some (.bytes (littleEndian m.bytes (memRead m (byteAddr / m.bytes) s).toNat)) }
    else .refused .busAccessNotOneEntry

/-- One host action (R44). -/
def perform (a : HostAction) (s : State) : Result :=
  match a with
  | .write m i v => hostWrite m i v s
  | .read m i => hostRead m i s
  | .writeCsr n v => hostWriteCsr n v s
  | .readCsr n => hostReadCsr n s
  | .reset => .next (takeReset s)
  | .bus b => busAccess b s

/-- Take the oldest host action waiting, if there is one; with none the block idles (R39, R164; log 3). -/
def takeAction (s : State) : Result :=
  match s.pending with
  | [] => .next s
  | a :: rest => perform a { s with pending := rest }

/-- `FILL S[a..b] = v` of a listing: one host write for every entry from `a` on, `n` of them (R59). -/
def fillActions (m : MemId) (v : Word) : (n a : Nat) → List HostAction
  | 0, _ => []
  | n + 1, a => .write m a v :: fillActions m v n (a + 1)

/-- The command word `w`, given as `nbits` bits, waiting as the host's next action (R50, R61). -/
def offerWord (s : State) (nbits w : Nat) : State :=
  { s with pending := .writeCsr 0 (BitVec.ofNat 64 (w % 2 ^ nbits)) :: s.pending }

end Sys2Proof.Machine
end

