-- ==== Sys2Proof/Machine/Step.lean ====
section
/-! DEFINITION. One step of the block: one host action, a whole command among them (R39, R44). -/

namespace Sys2Proof.Machine

/-- One step: the oldest host action waiting is taken to its end; with none waiting nothing changes (R39, R164). -/
def step (s : State) : Host.Outcome State Fault Refusal := takeAction s

/-- The state with a command word as the host's next action, so that `step` issues it (R42: a command comes from the host
port, not from a memory; log 3). -/
def State.withFetchWord (s : State) (nbits w : Nat) : State := offerWord s nbits w

end Sys2Proof.Machine
end

