-- ==== Sys2Proof/Safety.lean ====
section
/-! DEFINITION. What claims about WLDEC are stated in: the invariant of the block, which counters a section's cells hit,
the number a packed stream is (R105) and its inverses (R110), and the document's own cell loops (R81, R90, R123). -/

namespace Sys2Proof.Machine

/-- Every memory is in canonical form and lists no entry outside it (R21). -/
def MemoriesOk (s : State) : Prop :=
  ∀ m, (s.cells m).wf ∧ ∀ e ∈ s.cells m, e.1 < s.sizeOf m

/-- CAUSE, FINFO and FVAL say what R14, R18 and R140 say they do. -/
structure FaultRecordOk (s : State) : Prop where
  /-- CAUSE is 0 exactly while MODE is 0 (R14). -/
  cause_iff : s.cause = .none ↔ s.mode = .idle
  /-- FINFO and FVAL are 0 while MODE is 0 (R18). -/
  idle_clear : s.mode = .idle → s.finfo = 0 ∧ s.fval = 0
  /-- FINFO is 0 for a fault of decode (R18). -/
  decode_finfo : s.cause = .illegalOpcode ∨ s.cause = .reservedField ∨ s.cause = .widthBelowMin → s.finfo = 0
  /-- FVAL of PAL_OOB is a local index, FINFO an index into IDX (R18, R12). -/
  pal_fval : s.cause = .palOob → s.fval.toNat < 65536 ∧ s.finfo.toNat < 4096
  /-- FVAL of HIST_OOB is an address outside the bank, below 2^36 (R18, R71). -/
  hist_fval : s.cause = .histOob → s.histCells ≤ s.fval.toNat ∧ s.fval.toNat < 2 ^ 36

/-- The invariant of the block: what every state a run reaches has in common. -/
structure Inv (s : State) : Prop where
  memories : MemoriesOk s
  faultRecord : FaultRecordOk s
  /-- WREG is 0 or a width WidthSel can give (R16). -/
  wreg_range : s.wreg = 0 ∨ (4 ≤ s.wreg.toNat ∧ s.wreg.toNat ≤ 16)
  /-- OUTCNT is 0 or 4096 (R17). -/
  outcnt_values : s.outcnt = 0 ∨ s.outcnt = 4096
  /-- The bank has a counter (D11). -/
  bank_nonempty : 0 < s.histCells

/-- How many of the cells 0 to `n` - 1 have address `a`. -/
def hits (addr : Nat → Nat) (n a : Nat) : Nat := (List.range n).countP fun c => addr c == a

/-- The nibble of cell `c` in a packed byte, as a number (R33). -/
def nibbleValue (c : Nat) (b : Byte) : Nat := if c % 2 = 0 then b.toNat % 16 else b.toNat / 16

/-- Where DEC0 counts cell `c`, as R81 and R82 write it in sums. -/
def flatAddress (s : State) (c : Nat) : Nat :=
  (c % 128) * 4096 + ((memRead .blk c s).toNat * 16 + nibbleValue c (memRead .metadata (c / 2) s))

/-- Where DEC2 counts cell `c`, as R90 and R92 write it in sums. -/
def extendedAddress (s : State) (ysec : BitVec 8) (idlimit : BitVec 24) (c : Nat) : Nat :=
  (ysec.toNat * 16 + c / 256) * idlimit.toNat +
    (nibbleValue c (memRead .add2 (c / 2) s) * 65536 + nibbleValue c (memRead .add (c / 2) s) * 4096 +
      (memRead .blk c s).toNat * 16 + nibbleValue c (memRead .metadata (c / 2) s))

/-- Where cell `i` is counted when `index` gives the local indices (R123). -/
def paletteAddress (s : State) (ysec : BitVec 8) (idlimit : BitVec 24) (index : Nat → Nat) (i : Nat) : Nat :=
  (ysec.toNat * 16 + i / 256) * idlimit.toNat + (memRead .pal (index i) s).toNat

/-- The local indices that stand in IDX. -/
def storedIndex (s : State) (i : Nat) : Nat := (memRead .idx i s).toNat

/-- The number the first `words` words of PK make, PK[k] having weight 2^(64k) (R105). -/
def streamNumber (s : State) : (words : Nat) → Nat
  | 0 => 0
  | k + 1 => streamNumber s k + (memRead .pk k s).toNat * 2 ^ (64 * k)

/-- The n-th value with carry (R105). -/
def wcValue (s : State) (w n : Nat) : Nat := streamNumber s 1024 / 2 ^ (n * w) % 2 ^ w

/-- The n-th value without carry (R106). -/
def ncValue (s : State) (w n : Nat) : Nat :=
  (memRead .pk (n / (64 / w)) s).toNat / 2 ^ (n % (64 / w) * w) % 2 ^ w

/-- The number that `count` values of `w` bits make, value `n` at bit n x w (PackWC of R110). -/
def packedNumber (v : Nat → Nat) (w : Nat) : (count : Nat) → Nat
  | 0 => 0
  | n + 1 => packedNumber v w n + v n * 2 ^ (n * w)

/-- PK holds `PackWC` of the values `v` (R110). -/
def PackedWc (s : State) (w : Nat) (v : Nat → Nat) : Prop :=
  ∀ k < 64 * w, (memRead .pk k s).toNat = packedNumber v w 4096 / 2 ^ (64 * k) % 2 ^ 64

/-- The value slots of word `k` under `PackNC`: `count` of them, those past value 4095 zero (R110). -/
def ncWordNumber (v : Nat → Nat) (w k : Nat) : (count : Nat) → Nat
  | 0 => 0
  | j + 1 => ncWordNumber v w k j + (if k * (64 / w) + j ≤ 4095 then v (k * (64 / w) + j) else 0) * 2 ^ (j * w)

/-- PK holds `PackNC` of the values `v`, the bits above the value slots of a word free (R110). -/
def PackedNc (s : State) (w : Nat) (v : Nat → Nat) : Prop :=
  ∀ k < (4096 + 64 / w - 1) / (64 / w),
    (memRead .pk k s).toNat % 2 ^ (64 / w * w) = ncWordNumber v w k (64 / w)

/-- The sum of all counters of the bank (R76). -/
def bankTotal (s : State) : Nat := ((List.range s.histCells).map fun a => (memRead .hist a s).toNat).sum

/-- The cells a command counts (R76). -/
def cellsCounted : Instr → Nat
  | .dec0 => 32768
  | .dec2 _ _ => 4096
  | .dec13Wc _ _ _ => 4096
  | .dec13Nc _ _ _ => 4096
  | .unpkWc _ => 0
  | .unpkNc _ => 0
  | .wsel _ => 0
  | .pacc _ _ _ => 4096

/-- `HistInc` as a line of a pseudocode loop that an earlier fault has ended (R143). -/
def incUnlessEnded (a c : Nat) (s : State) : State := if s.mode = .fault then s else histInc a c s

/-- The pair of cells at `y` and `y + 1` of a column, as the pseudocode of R81 writes it. -/
def flatPair (column y : Nat) (s : State) : State :=
  let idx := y + column * 128
  let m := memRead .metadata (idx / 2) s
  let idLo := (memRead .blk idx s).toNat <<< 4 ||| (lo4 m).toNat
  let idHi := (memRead .blk (idx + 1) s).toNat <<< 4 ||| (hi4 m).toNat
  incUnlessEnded (histAddr (y + 1) 4096 idHi) (idx + 1) (incUnlessEnded (histAddr y 4096 idLo) idx s)

/-- The pseudocode of R81: for every column, for y in 0 .. 126 step 2. -/
def flatLoop (s : State) : State :=
  (List.range 256).foldl (fun s column => (List.range 64).foldl (fun s h => flatPair column (2 * h) s) s) s

/-- The pair of cells of one slot of the nibble-packed arrays, as the pseudocode of R90 writes it. -/
def extendedPair (ysec : BitVec 8) (idlimit : BitVec 24) (yLocal zx : Nat) (s : State) : State :=
  let layer := ysec.toNat * 16 + yLocal
  let idx := zx + yLocal * 128
  let a := memRead .add idx s
  let a2 := memRead .add2 idx s
  let m := memRead .metadata idx s
  let id0 := (lo4 a2).toNat <<< 16 ||| (lo4 a).toNat <<< 12 ||| (memRead .blk (idx * 2) s).toNat <<< 4 ||| (lo4 m).toNat
  let id1 := (hi4 a2).toNat <<< 16 ||| (hi4 a).toNat <<< 12 ||| (memRead .blk (idx * 2 + 1) s).toNat <<< 4 ||| (hi4 m).toNat
  incUnlessEnded (histAddr layer idlimit.toNat id1) (idx * 2 + 1)
    (incUnlessEnded (histAddr layer idlimit.toNat id0) (idx * 2) s)

/-- The pseudocode of R90: for y_local in 0 .. 15, for zx in 0 .. 127. -/
def extendedLoop (ysec : BitVec 8) (idlimit : BitVec 24) (s : State) : State :=
  (List.range 16).foldl
    (fun s yLocal => (List.range 128).foldl (fun s zx => extendedPair ysec idlimit yLocal zx s) s) s

/-- Two states agree on the seven registers of R10. -/
structure SameRegisters (s t : State) : Prop where
  mode : t.mode = s.mode
  cause : t.cause = s.cause
  uw : t.uw = s.uw
  wreg : t.wreg = s.wreg
  outcnt : t.outcnt = s.outcnt
  finfo : t.finfo = s.finfo
  fval : t.fval = s.fval

/-- Two states agree on what no command ever writes: the size of the bank and the model's own fields. -/
structure SameOwn (s t : State) : Prop where
  histCells : t.histCells = s.histCells
  draw : t.draw = s.draw
  pending : t.pending = s.pending
  answer : t.answer = s.answer

/-- Every entry of every memory but those in `written` reads in `t` as in `s`. -/
def SameReadsBut (written : List MemId) (s t : State) : Prop :=
  ∀ m, m ∉ written → ∀ i, memRead m i t = memRead m i s

/-- The fault registers hold the record of a fault (R143). -/
structure FaultTaken (cause : Cause) (info : BitVec 15) (val : Word) (t : State) : Prop where
  mode : t.mode = .fault
  cause : t.cause = cause
  finfo : t.finfo = info
  fval : t.fval = val

/-- Every counter of `t` is that of `s` plus the number of the cells 0 to `n` - 1 counted at it, modulo 2^64 (R72, R77). -/
def CountedInto (addr : Nat → Nat) (n : Nat) (s t : State) : Prop :=
  ∀ a, memRead .hist a t = memRead .hist a s + BitVec.ofNat 64 (hits addr n a)

end Sys2Proof.Machine
end

