-- ==== Sys2Proof/Certificates/Slice0/Obligations.lean ====
section
/-! DEFINITION. The statements about WLDEC that the provers settle. Each names the rule of spec/ it formalises, or the rules
it is derived from. A statement about a command holds in every state and for every content of memory, the contents of
entries never written among them (log 1), and for every HIST_CELLS (log 2). What the host does is the queue `pending`, what
it is answered is `answer` (logs 3 and 4). -/

open Sys2Proof Sys2Proof.Machine

/-! ### The command word -/

/-- Derived from R53, R55, R57, R61: every legal command decodes from its own word, whatever its operands. -/
def Obligations.DecodeOfEncode : Prop :=
  ∀ i : Instr, i.wellFormed = true → decode (encode i) = .ok i

/-- Derived from R51, R55, R57, R61: a word that decodes is the word of the command it decodes to, and that command is
legal, so no two words have one meaning. -/
def Obligations.EncodeOfDecode : Prop :=
  ∀ (x : Word) (i : Instr), decode x = .ok i → encode i = x ∧ i.wellFormed = true

/-- Derived from R51: the word is the sum of its fields, each at its weight, and the fields come back from it. -/
def Obligations.CommandWordFormula : Prop :=
  ∀ f : Fields,
    (wordOf f).toNat = f.op.toNat * 2 ^ 60 + f.cm.toNat * 2 ^ 59 + f.w.toNat * 2 ^ 54 + f.rsv.toNat * 2 ^ 48 +
        f.ysec.toNat * 2 ^ 40 + f.maxpal.toNat * 2 ^ 24 + f.idlimit.toNat ∧
      fieldsOf (wordOf f) = f

/-- R54: a word is the command of a row when `x & mask = match`; for the UNPK rows the width floor of R57 stands
outside the mask. -/
def Obligations.DecodeMeetsMatchAndMask : Prop :=
  (∀ (x : Word) (i : Instr), decode x = .ok i → x &&& (matchMask i).2 = (matchMask i).1) ∧
    ∀ (x : Word) (i : Instr), x &&& (matchMask i).2 = (matchMask i).1 →
      (∃ j, decode x = .ok j ∧ matchMask j = matchMask i) ∨
        (decode x = .error .widthBelowMin ∧ ((∃ w, i = .unpkWc w) ∨ ∃ w, i = .unpkNc w))

/-- Derived from R56 case (a), R61: the opcode is tested first; exactly the words with op 0 or 7 to 15 are rejected
for it. -/
def Obligations.IllegalOpcodeExactly : Prop :=
  ∀ x : Word, decode x = .error .illegalOpcode ↔ (x.toNat / 2 ^ 60 = 0 ∨ 7 ≤ x.toNat / 2 ^ 60)

/-- Derived from R55, R56 case (b), R61: a word with a legal op is rejected for a reserved field exactly if rsv, or a
field R55 marks 0 for that op, is not 0. -/
def Obligations.ReservedFieldExactly : Prop :=
  ∀ x : Word,
    let op := x.toNat / 2 ^ 60
    decode x = .error .reservedField ↔
      (1 ≤ op ∧ op ≤ 6) ∧
        (x.toNat / 2 ^ 48 % 64 ≠ 0 ∨
          (x.toNat / 2 ^ 59 % 2 ≠ 0 ∧ (op = 1 ∨ op = 2 ∨ op = 5 ∨ op = 6)) ∨
          (x.toNat / 2 ^ 54 % 32 ≠ 0 ∧ op ≠ 4) ∨
          (x.toNat / 2 ^ 40 % 256 ≠ 0 ∧ (op = 1 ∨ op = 4 ∨ op = 5)) ∨
          (x.toNat / 2 ^ 24 % 65536 ≠ 0 ∧ (op = 1 ∨ op = 2 ∨ op = 4)) ∨
          (x.toNat % 2 ^ 24 ≠ 0 ∧ (op = 1 ∨ op = 4 ∨ op = 5)))

/-- Derived from R57, R61: the width floor rejects exactly the UNPK words, otherwise legal, with w of 0 to 3. -/
def Obligations.WidthFloorExactly : Prop :=
  ∀ x : Word, decode x = .error .widthBelowMin ↔
    (x.toNat / 2 ^ 60 = 4 ∧ x.toNat / 2 ^ 54 % 32 < 4 ∧ x.toNat % 2 ^ 54 = 0)

/-- R62: worked encodings, as words written out by the spec. -/
def Obligations.WorkedEncodings : Prop :=
  decode 0x1000000000000000 = .ok .dec0 ∧
    decode 0x2000010000100000 = .ok (.dec2 1 1048576) ∧
    decode 0x30000200100003E8 = .ok (.dec13Wc 2 1000 16) ∧
    decode 0x38000200100003E8 = .ok (.dec13Nc 2 1000 16) ∧
    decode 0x4140000000000000 = .ok (.unpkWc 5) ∧
    decode 0x4940000000000000 = .ok (.unpkNc 5) ∧
    decode 0x4C00000000000000 = .ok (.unpkNc 16) ∧
    decode 0x4440000000000000 = .ok (.unpkWc 17) ∧
    decode 0x40C0000000000000 = .error .widthBelowMin ∧
    decode 0x5000000010000000 = .ok (.wsel 16) ∧
    decode 0x500000FFFF000000 = .ok (.wsel 65535) ∧
    decode 0x60000200100003E8 = .ok (.pacc 2 1000 16) ∧
    decode 0x7000000000000000 = .error .illegalOpcode ∧
    decode 0x1000000000000001 = .error .reservedField

/-! ### The step, the host port and reset -/

/-- Derived from R61, R39: with MODE = 0 and a command word next that decodes, a step is `exec` of the decoded command at
the state without that action. -/
def Obligations.StepRunsTheDecodedCommand : Prop :=
  ∀ (s : State) (x : Word) (rest : List HostAction) (i : Instr),
    s.pending = .writeCsr 0 x :: rest → s.mode = .idle → decode x = .ok i →
      step s = exec i { s with pending := rest }

/-- Derived from R56, R57, R61, R140, R143, R146: a rejected word takes its fault, which records the word, and changes
nothing but MODE, CAUSE, FINFO and FVAL. -/
def Obligations.RejectedWordTakesFault : Prop :=
  ∀ (s : State) (x : Word) (rest : List HostAction) (e : DecodeError),
    s.pending = .writeCsr 0 x :: rest → s.mode = .idle → decode x = .error e →
      step s = .next { s with
        pending := rest, mode := .fault, finfo := 0, fval := x,
        cause := match e with
          | .illegalOpcode => .illegalOpcode
          | .reservedField => .reservedField
          | .widthBelowMin => .widthBelowMin }

/-- R145: in MODE = 1 a write to CMD is discarded, and host reads and writes of the memories and host reads of the
registers work. -/
def Obligations.FaultModeDiscardsCommandsOnly : Prop :=
  ∀ (s : State) (rest : List HostAction), s.mode = .fault →
    (∀ x, s.pending = .writeCsr 0 x :: rest → step s = .next { s with pending := rest }) ∧
      (∀ m i v, s.pending = .write m i v :: rest → i < s.sizeOf m → v.toNat < 2 ^ m.width →
        step s = .next (memWrite m i (v.setWidth m.width) { s with pending := rest })) ∧
      (∀ m i, s.pending = .read m i :: rest → i < s.sizeOf m →
        step s = .next { s with pending := rest, answer := some (.value ((memRead m i s).setWidth 64)) }) ∧
      ∀ n, s.pending = .readCsr n :: rest →
        step s = .next { s with pending := rest, answer := some (.value (csrRead n s)) }

/-- Derived from R160: reset clears the seven registers and leaves every memory as it was, in MODE = 0 and in MODE =
1. -/
def Obligations.ResetClearsTheRegistersOnly : Prop :=
  ∀ (s : State) (rest : List HostAction), s.pending = .reset :: rest →
    step s = .next { s with
      pending := rest, mode := .idle, cause := .none, uw := false, wreg := 0, outcnt := 0, finfo := 0, fval := 0 }

/-- Derived from R24, R160 (that no entry is listed is log 1): the state after reset: the seven registers are 0, no memory
entry is listed, HIST_CELLS is 1 or more (R5, log 2), and one more reset changes nothing. -/
def Obligations.StateAfterReset : Prop :=
  State.reset.mode = .idle ∧ State.reset.cause = .none ∧ State.reset.uw = false ∧ State.reset.wreg = 0 ∧
    State.reset.outcnt = 0 ∧ State.reset.finfo = 0 ∧ State.reset.fval = 0 ∧ 1 ≤ State.reset.histCells ∧
    (∀ m, State.reset.cells m = []) ∧ takeReset State.reset = State.reset

/-- Derived from R31, R44: a host write of a value that fits, inside the memory, leaves the entry holding it and every
other entry of every memory, every register and the bank's size as they were, in either MODE. -/
def Obligations.HostWriteStoresOneEntry : Prop :=
  ∀ (s : State) (rest : List HostAction) (m : MemId) (i : Nat) (v : Word),
    s.pending = .write m i v :: rest → i < s.sizeOf m → v.toNat < 2 ^ m.width →
      ∃ t, step s = .next t ∧ (memRead m i t).toNat = v.toNat ∧
        (∀ m' j, m' ≠ m ∨ j ≠ i → memRead m' j t = memRead m' j s) ∧
        SameRegisters s t ∧ t.histCells = s.histCells ∧ t.draw = s.draw ∧ t.pending = rest ∧ t.answer = s.answer

/-- Derived from R31, R44: a host read inside the memory answers the entry and changes nothing of the block. -/
def Obligations.HostReadReturnsTheEntry : Prop :=
  ∀ (s : State) (rest : List HostAction) (m : MemId) (i : Nat),
    s.pending = .read m i :: rest → i < s.sizeOf m →
      ∃ v : Word, v.toNat = (memRead m i s).toNat ∧
        step s = .next { s with pending := rest, answer := some (.value v) }

/-- R19: what the host reads at each register number, STATUS bit by bit; a write of number 0 issues the value, no
other write does anything. -/
def Obligations.RegisterNumbers : Prop :=
  (∀ s : State, csrRead 0 s = 0 ∧ (csrRead 2 s).toNat = s.wreg.toNat ∧ (csrRead 3 s).toNat = s.outcnt.toNat ∧
    (csrRead 4 s).toNat = s.finfo.toNat ∧ csrRead 5 s = s.fval ∧ (∀ n, 6 ≤ n → csrRead n s = 0) ∧
    (csrRead 1 s).toNat = (if s.mode = .fault then 1 else 0) + (if s.uw then 2 else 0) +
      16 * (match s.cause with
        | .none => 0
        | .illegalOpcode => 1
        | .reservedField => 2
        | .widthBelowMin => 3
        | .palOob => 4
        | .histOob => 5)) ∧
    (∀ (s : State) (n : Nat) (rest : List HostAction), s.pending = .readCsr n :: rest →
      step s = .next { s with pending := rest, answer := some (.value (csrRead n s)) }) ∧
    ∀ (s : State) (n : Nat) (v : Word) (rest : List HostAction), s.pending = .writeCsr n v :: rest →
      (n = 0 → step s = issue v { s with pending := rest }) ∧ (1 ≤ n → step s = .next { s with pending := rest })

/-- Derived from R44, U7: a host access outside its memory, or of a value that does not fit, is no action and is
refused. -/
def Obligations.HostAccessOutsideIsRefused : Prop :=
  ∀ (s : State) (rest : List HostAction) (m : MemId) (i : Nat) (v : Word),
    (s.pending = .write m i v :: rest → s.sizeOf m ≤ i → step s = .refused .hostIndexOutsideMemory) ∧
      (s.pending = .write m i v :: rest → i < s.sizeOf m → 2 ^ m.width ≤ v.toNat →
        step s = .refused .hostValueTooWide) ∧
      (s.pending = .read m i :: rest → s.sizeOf m ≤ i → step s = .refused .hostIndexOutsideMemory)

/-- Derived from R32, R35 (byte addresses counted from the memory's entry 0 are log 5): an access through byte
addresses is one whole entry at a multiple of its size, least weight first, and reads back what was written; every
other is refused. -/
def Obligations.BusAccessIsOneWholeEntry : Prop :=
  ∀ (s : State) (rest : List HostAction) (m : MemId) (byteAddr : Nat),
    (∀ (i : Nat) (v : BitVec m.width), byteAddr = i * m.bytes → i < s.sizeOf m →
      s.pending = .bus (.write m byteAddr (littleEndian m.bytes v.toNat)) :: rest →
        step s = .next (memWrite m i v { s with pending := rest })) ∧
      (∀ i : Nat, byteAddr = i * m.bytes → i < s.sizeOf m → s.pending = .bus (.read m byteAddr m.bytes) :: rest →
        ∃ bs, ofLittleEndian bs = (memRead m i s).toNat ∧ bs.length = m.bytes ∧
          step s = .next { s with pending := rest, answer := some (.bytes bs) }) ∧
      (∀ bytes, s.pending = .bus (.write m byteAddr bytes) :: rest →
        bytes.length ≠ m.bytes ∨ ¬ m.bytes ∣ byteAddr → step s = .refused .busAccessNotOneEntry) ∧
      ∀ size, s.pending = .bus (.read m byteAddr size) :: rest →
        size ≠ m.bytes ∨ ¬ m.bytes ∣ byteAddr → step s = .refused .busAccessNotOneEntry

/-- Derived from R144, R145 (that `exec` itself does nothing in MODE = 1 is log 11): no command changes a faulted
block. -/
def Obligations.NothingExecutesInFault : Prop :=
  ∀ (i : Instr) (s : State), s.mode = .fault → exec i s = .next s

/-! ### The histogram bank -/

/-- R72: an increment outside the bank raises HIST_OOB and writes no counter; one inside adds 1 to one counter, modulo
2^64, and changes nothing else. -/
def Obligations.HistogramIncrement : Prop :=
  ∀ (a c : Nat) (s : State),
    (s.histCells ≤ a → histInc a c s = { s with
      mode := .fault, cause := .histOob, finfo := BitVec.ofNat 15 c, fval := BitVec.ofNat 64 a }) ∧
      (a < s.histCells →
        (memRead .hist a (histInc a c s)).toNat = ((memRead .hist a s).toNat + 1) % 2 ^ 64 ∧
        (∀ b, b ≠ a → memRead .hist b (histInc a c s) = memRead .hist b s) ∧
        SameReadsBut [.hist] s (histInc a c s) ∧ SameRegisters s (histInc a c s) ∧ SameOwn s (histInc a c s))

/-- R71: the address is exact, and with a layer of at most 4095 and 24-bit row length and identifier it is below 2^36.
-/
def Obligations.AddressFitsThirtySixBits : Prop :=
  ∀ layer idlimit id : Nat, histAddr layer idlimit id = layer * idlimit + id ∧
    (layer ≤ 4095 → idlimit < 2 ^ 24 → id < 2 ^ 24 → histAddr layer idlimit id < 2 ^ 36)

/-- Derived from R73: an identifier at or beyond the row length is counted in a later row; with row length 0 the
address is the identifier alone. -/
def Obligations.LongIdentifierFallsInLaterRow : Prop :=
  ∀ layer idlimit id : Nat,
    histAddr layer idlimit id = histAddr (layer + id / idlimit) idlimit (id % idlimit) ∧ histAddr layer 0 id = id

/-- Derived from R76, R146: a command that completes without a fault makes one increment for each cell of its section,
one that faults makes as many as the ordinal in FINFO says. So if no counter wraps, the sum of all counters grows by
exactly 32768 for DEC0 and 4096 for DEC2, PACC and both DEC13, and by 0 for the commands that count nothing, or by
FINFO. -/
def Obligations.HistogramConservation : Prop :=
  ∀ (i : Instr) (s t : State), s.mode = .idle → exec i s = .next t →
    (∀ a < s.histCells, (memRead .hist a s).toNat + cellsCounted i < 2 ^ 64) →
      bankTotal t = bankTotal s + if t.mode = .fault then t.finfo.toNat else cellsCounted i

/-! ### DEC0 and DEC2 -/

/-- Derived from R33 (log 10), R77, R81, R82: with 524288 counters or more DEC0 never faults, and counts every one of
the 32768 cells once, at layer (c mod 128), row length 4096, identifier byte x 16 + nibble. -/
def Obligations.Dec0CountsEveryCell : Prop :=
  ∀ s : State, s.mode = .idle → 524288 ≤ s.histCells →
    ∃ t, exec .dec0 s = .next t ∧ t.mode = .idle ∧ CountedInto (flatAddress s) 32768 s t

/-- Derived from R33 (log 10), R72, R81, R140, R142, R146: the first cell whose counter lies outside the bank faults
HIST_OOB with its ordinal and address; the cells before it are counted and no other. -/
def Obligations.Dec0FaultsAtFirstCellOutside : Prop :=
  ∀ (s : State) (k : Nat), s.mode = .idle → k < 32768 → (∀ c < k, flatAddress s c < s.histCells) →
    s.histCells ≤ flatAddress s k →
      ∃ t, exec .dec0 s = .next t ∧
        FaultTaken .histOob (BitVec.ofNat 15 k) (BitVec.ofNat 64 (flatAddress s k)) t ∧
        CountedInto (flatAddress s) k s t

/-- Derived from R12, R33 (log 10), R81, R142: the loop over cell ordinals is the pseudocode of R81 (256 columns, y in
steps of 2, the low nibble's cell before the high one's), fault or no fault. -/
def Obligations.Dec0IsTheColumnLoop : Prop :=
  ∀ s : State, s.mode = .idle → exec .dec0 s = .next (flatLoop s)

/-- Derived from R33 (log 10), R83: the pair property: the even cell takes the low nibble at layer y, the odd one the
high nibble at layer y + 1. -/
def Obligations.NibblePairProperty : Prop :=
  ∀ (s : State) (column y b0 b1 lo hi : Nat), column < 256 → y < 128 → y % 2 = 0 → lo < 16 → hi < 16 →
    (memRead .blk (y + column * 128) s).toNat = b0 → (memRead .blk (y + column * 128 + 1) s).toNat = b1 →
    (memRead .metadata ((y + column * 128) / 2) s).toNat = hi * 16 + lo →
      dec0Addr (y + column * 128) s = y * 4096 + (b0 * 16 + lo) ∧
        dec0Addr (y + column * 128 + 1) s = (y + 1) * 4096 + (b1 * 16 + hi)

/-- Derived from R33 (log 10), R77, R90, R91: a DEC2 all of whose addresses lie in the bank counts every one of the
4096 cells once, at layer ysec x 16 + c div 256 and the identifier of the closed sum. -/
def Obligations.Dec2CountsEveryCell : Prop :=
  ∀ (s : State) (ysec : BitVec 8) (idlimit : BitVec 24), s.mode = .idle →
    (∀ c < 4096, extendedAddress s ysec idlimit c < s.histCells) →
      ∃ t, exec (.dec2 ysec idlimit) s = .next t ∧ t.mode = .idle ∧
        CountedInto (extendedAddress s ysec idlimit) 4096 s t

/-- Derived from R33 (log 10), R72, R90, R140, R142, R146: the first cell of a DEC2 outside the bank faults HIST_OOB;
the cells before it are counted and no other. -/
def Obligations.Dec2FaultsAtFirstCellOutside : Prop :=
  ∀ (s : State) (ysec : BitVec 8) (idlimit : BitVec 24) (k : Nat), s.mode = .idle → k < 4096 →
    (∀ c < k, extendedAddress s ysec idlimit c < s.histCells) → s.histCells ≤ extendedAddress s ysec idlimit k →
      ∃ t, exec (.dec2 ysec idlimit) s = .next t ∧
        FaultTaken .histOob (BitVec.ofNat 15 k) (BitVec.ofNat 64 (extendedAddress s ysec idlimit k)) t ∧
        CountedInto (extendedAddress s ysec idlimit) k s t

/-- Derived from R12, R33 (log 10), R90, R142: the loop over cell ordinals is the pseudocode of R90 (16 layers of 128
slots, the low nibbles' cell before the high ones'), fault or no fault. -/
def Obligations.Dec2IsTheSlotLoop : Prop :=
  ∀ (s : State) (ysec : BitVec 8) (idlimit : BitVec 24), s.mode = .idle →
    exec (.dec2 ysec idlimit) s = .next (extendedLoop ysec idlimit s)

/-- Derived from R33 (log 10), R92: the identifier DEC2 counts is the closed sum of its parts, and the map from parts
to identifiers is a bijection. -/
def Obligations.IdentifierComposition : Prop :=
  (∀ (a2n an mn : Nibble) (blk : Byte),
    (extendedId a2n an blk mn).toNat = a2n.toNat * 2 ^ 16 + an.toNat * 2 ^ 12 + blk.toNat * 2 ^ 4 + mn.toNat) ∧
    (∀ (ysec : BitVec 8) (idlimit : BitVec 24) (c : Nat) (s : State),
      dec2Addr ysec idlimit c s = extendedAddress s ysec idlimit c) ∧
    Function.Bijective fun p : Nibble × Nibble × Byte × Nibble => extendedId p.1 p.2.1 p.2.2.1 p.2.2.2

/-! ### The unpacker -/

/-- R105: after UNPK.WC with w of 4 to 16, entry n of IDX is the w bits of the stream from bit n x w on; OUTCNT is
4096 and no fault is taken. -/
def Obligations.UnpkWcClosedForm : Prop :=
  ∀ (s : State) (w : BitVec 5), s.mode = .idle → 4 ≤ w.toNat → w.toNat ≤ 16 →
    ∃ t, exec (.unpkWc w) s = .next t ∧ t.mode = .idle ∧ t.outcnt = 4096 ∧
      ∀ n < 4096, (memRead .idx n t).toNat = wcValue s w.toNat n

/-- R106: after UNPK.NC with w of 4 to 16, entry n of IDX is slot (n mod vpw) of word (n div vpw), vpw = 64 div w;
OUTCNT is 4096 and no fault is taken. -/
def Obligations.UnpkNcClosedForm : Prop :=
  ∀ (s : State) (w : BitVec 5), s.mode = .idle → 4 ≤ w.toNat → w.toNat ≤ 16 →
    ∃ t, exec (.unpkNc w) s = .next t ∧ t.mode = .idle ∧ t.outcnt = 4096 ∧
      ∀ n < 4096, (memRead .idx n t).toNat = ncValue s w.toNat n

/-- R101: with w above 16 an UNPK sets UW, clears OUTCNT, changes nothing else and takes no fault. -/
def Obligations.UnpkAboveSixteenOnlyFlags : Prop :=
  ∀ (s : State) (w : BitVec 5), s.mode = .idle → 16 < w.toNat →
    exec (.unpkWc w) s = .next { s with uw := true, outcnt := 0 } ∧
      exec (.unpkNc w) s = .next { s with uw := true, outcnt := 0 }

/-- Derived from R57, R102, R140 (that `exec` of a command decode would have refused takes that same fault is log 11):
an UNPK with w below 4 takes WIDTH_BELOW_MIN with its own word in FVAL, and does nothing else. -/
def Obligations.UnpkBelowFourTakesFault : Prop :=
  ∀ (s : State) (w : BitVec 5), s.mode = .idle → w.toNat < 4 →
    exec (.unpkWc w) s = .next { s with
      mode := .fault, cause := .widthBelowMin, finfo := 0, fval := 0x4000000000000000 + w.setWidth 64 <<< 54 } ∧
      exec (.unpkNc w) s = .next { s with
        mode := .fault, cause := .widthBelowMin, finfo := 0, fval := 0x4800000000000000 + w.setWidth 64 <<< 54 }

/-- Derived from R107, R108: with carry exactly the words 0 to 64w - 1 are read, without carry exactly the first
ceil(4096 / (64 div w)), never more than 1024, and 4096 values come out. -/
def Obligations.UnpackWordsRead : Prop :=
  ∀ (w : Nat) (pk : Nat → Word) (idx : Memory 16), 4 ≤ w → w ≤ 16 →
    (unpackWords (wcWord w) pk 1024 (bsuStart idx)).k = 64 * w ∧
      (unpackWords (wcWord w) pk 1024 (bsuStart idx)).n = 4096 ∧
      (unpackWords (ncWord w) pk 1024 (bsuStart idx)).k = (4096 + 64 / w - 1) / (64 / w) ∧
      (unpackWords (ncWord w) pk 1024 (bsuStart idx)).n = 4096

/-- Derived from R104, R107, U11: no entry of IDX depends on a word past those an unpack reads, nor, without carry, on
the top bits it drops. -/
def Obligations.UnpackIgnoresOtherBits : Prop :=
  ∀ (s s' t t' : State) (w : BitVec 5), s.mode = .idle → s'.mode = .idle → 4 ≤ w.toNat → w.toNat ≤ 16 →
    (exec (.unpkWc w) s = .next t → exec (.unpkWc w) s' = .next t' →
      (∀ k < 64 * w.toNat, memRead .pk k s' = memRead .pk k s) →
        ∀ n < 4096, memRead .idx n t' = memRead .idx n t) ∧
      (exec (.unpkNc w) s = .next t → exec (.unpkNc w) s' = .next t' →
        (∀ k < (4096 + 64 / w.toNat - 1) / (64 / w.toNat), ∀ b < 64 / w.toNat * w.toNat,
          (memRead .pk k s').getLsbD b = (memRead .pk k s).getLsbD b) →
          ∀ n < 4096, memRead .idx n t' = memRead .idx n t)

/-- Derived from R109: the conventions agree on every value for w = 4, 8 and 16, and for every w on the values of the
first word. -/
def Obligations.ConventionsAgree : Prop :=
  ∀ (s t t' : State) (w : BitVec 5), s.mode = .idle → 4 ≤ w.toNat → w.toNat ≤ 16 →
    exec (.unpkWc w) s = .next t → exec (.unpkNc w) s = .next t' →
      (∀ n < 64 / w.toNat, memRead .idx n t' = memRead .idx n t) ∧
        (w = 4 ∨ w = 8 ∨ w = 16 → ∀ n < 4096, memRead .idx n t' = memRead .idx n t)

/-- Derived from R110: unpacking with carry what PackWC packed returns the values. -/
def Obligations.UnpackReturnsWhatPackWcPacked : Prop :=
  ∀ (s : State) (w : BitVec 5) (v : Nat → Nat), s.mode = .idle → 4 ≤ w.toNat → w.toNat ≤ 16 →
    (∀ n < 4096, v n < 2 ^ w.toNat) → PackedWc s w.toNat v →
      ∃ t, exec (.unpkWc w) s = .next t ∧ ∀ n < 4096, (memRead .idx n t).toNat = v n

/-- Derived from R110: unpacking without carry what PackNC packed returns the values, whatever the bits above the
value slots of a word. -/
def Obligations.UnpackReturnsWhatPackNcPacked : Prop :=
  ∀ (s : State) (w : BitVec 5) (v : Nat → Nat), s.mode = .idle → 4 ≤ w.toNat → w.toNat ≤ 16 →
    (∀ n < 4096, v n < 2 ^ w.toNat) → PackedNc s w.toNat v →
      ∃ t, exec (.unpkNc w) s = .next t ∧ ∀ n < 4096, (memRead .idx n t).toNat = v n

/-- Derived from R111: before a feed NBITS is below w, so after it NBITS is at most 47 and ACC below 2^47: the feed
loses no bit; and once the values that fit are taken NBITS is below w again, unless the unpack has ended. -/
def Obligations.AccumulatorLosesNoBit : Prop :=
  ∀ (w : Nat) (half : BitVec 32) (b : Bsu), 4 ≤ w → w ≤ 16 → b.nbits < w → b.acc.toNat < 2 ^ b.nbits → b.n < 4096 →
    b.nbits + 32 ≤ 47 ∧
      (b.acc ||| half.setWidth 64 <<< b.nbits).toNat = b.acc.toNat + half.toNat * 2 ^ b.nbits ∧
      (b.acc ||| half.setWidth 64 <<< b.nbits).toNat < 2 ^ 47 ∧
      ((wcFeed w half b).n = 4096 ∨ (wcFeed w half b).nbits < w) ∧
      (wcFeed w half b).n ≤ 4096 ∧
      (wcFeed w half b).acc.toNat < 2 ^ (wcFeed w half b).nbits

/-! ### WSEL, PACC and DEC13 -/

/-- R121: WSEL leaves in WREG the smallest width of 4 or more that holds every index up to maxpal, which is at most 16
(R120), and changes nothing else. -/
def Obligations.WselSelectsTheSmallestWidth : Prop :=
  ∀ (s : State) (maxpal : BitVec 16), s.mode = .idle →
    ∃ w : BitVec 5, exec (.wsel maxpal) s = .next { s with wreg := w } ∧ w.toNat = widthSel maxpal ∧
      4 ≤ w.toNat ∧ w.toNat ≤ 16 ∧ maxpal.toNat + 1 ≤ 2 ^ w.toNat ∧
      ∀ v, 4 ≤ v → maxpal.toNat + 1 ≤ 2 ^ v → w.toNat ≤ v

/-- Derived from R77, R122, R123, R126: a PACC all of whose indices are in the palette and all of whose addresses lie
in the bank counts every one of the 4096 cells once. -/
def Obligations.PaccCountsEveryCell : Prop :=
  ∀ (s : State) (ysec : BitVec 8) (idlimit : BitVec 24) (maxpal : BitVec 16), s.mode = .idle →
    (∀ i < 4096, storedIndex s i ≤ maxpal.toNat ∧
      paletteAddress s ysec idlimit (storedIndex s) i < s.histCells) →
      ∃ t, exec (.pacc ysec idlimit maxpal) s = .next t ∧ t.mode = .idle ∧
        CountedInto (paletteAddress s ysec idlimit (storedIndex s)) 4096 s t

/-- Derived from R122, R123, R140, R142, R146: the first bad cell of a PACC faults, PAL_OOB if its index is beyond the
palette, else HIST_OOB if its counter is outside the bank; the cells before it are counted and no other. -/
def Obligations.PaccFaultsAtFirstBadCell : Prop :=
  ∀ (s : State) (ysec : BitVec 8) (idlimit : BitVec 24) (maxpal : BitVec 16) (k : Nat), s.mode = .idle → k < 4096 →
    (∀ i < k, storedIndex s i ≤ maxpal.toNat ∧
      paletteAddress s ysec idlimit (storedIndex s) i < s.histCells) →
      (maxpal.toNat < storedIndex s k →
        ∃ t, exec (.pacc ysec idlimit maxpal) s = .next t ∧
          FaultTaken .palOob (BitVec.ofNat 15 k) (BitVec.ofNat 64 (storedIndex s k)) t ∧
          CountedInto (paletteAddress s ysec idlimit (storedIndex s)) k s t) ∧
      (storedIndex s k ≤ maxpal.toNat → s.histCells ≤ paletteAddress s ysec idlimit (storedIndex s) k →
        ∃ t, exec (.pacc ysec idlimit maxpal) s = .next t ∧
          FaultTaken .histOob (BitVec.ofNat 15 k)
            (BitVec.ofNat 64 (paletteAddress s ysec idlimit (storedIndex s) k)) t ∧
          CountedInto (paletteAddress s ysec idlimit (storedIndex s)) k s t)

/-- Derived from R105, R120, R123, R124: a DEC13.WC on a good section selects the width, unpacks the stream with carry
and counts every cell once; WREG, OUTCNT and IDX hold the results of the first two phases. -/
def Obligations.Dec13WcDecodesAndCounts : Prop :=
  ∀ (s : State) (ysec : BitVec 8) (idlimit : BitVec 24) (maxpal : BitVec 16), s.mode = .idle →
    let index := wcValue s (widthSel maxpal)
    (∀ i < 4096, index i ≤ maxpal.toNat ∧ paletteAddress s ysec idlimit index i < s.histCells) →
      ∃ t, exec (.dec13Wc ysec idlimit maxpal) s = .next t ∧ t.mode = .idle ∧
        t.wreg.toNat = widthSel maxpal ∧ t.outcnt = 4096 ∧
        (∀ n < 4096, (memRead .idx n t).toNat = index n) ∧
        CountedInto (paletteAddress s ysec idlimit index) 4096 s t

/-- Derived from R124, R140, R142, R146: the first bad cell of a DEC13.WC faults as in PACC, with the first two phases
complete. -/
def Obligations.Dec13WcFaultsAtFirstBadCell : Prop :=
  ∀ (s : State) (ysec : BitVec 8) (idlimit : BitVec 24) (maxpal : BitVec 16) (k : Nat), s.mode = .idle → k < 4096 →
    let index := wcValue s (widthSel maxpal)
    (∀ i < k, index i ≤ maxpal.toNat ∧ paletteAddress s ysec idlimit index i < s.histCells) →
    (maxpal.toNat < index k ∨ s.histCells ≤ paletteAddress s ysec idlimit index k) →
      ∃ t, exec (.dec13Wc ysec idlimit maxpal) s = .next t ∧
        (if maxpal.toNat < index k then
          FaultTaken .palOob (BitVec.ofNat 15 k) (BitVec.ofNat 64 (index k)) t
        else FaultTaken .histOob (BitVec.ofNat 15 k) (BitVec.ofNat 64 (paletteAddress s ysec idlimit index k)) t) ∧
        t.wreg.toNat = widthSel maxpal ∧ t.outcnt = 4096 ∧
        (∀ n < 4096, (memRead .idx n t).toNat = index n) ∧
        CountedInto (paletteAddress s ysec idlimit index) k s t

/-- Derived from R106, R120, R123, R125: a DEC13.NC on a good section selects the width, unpacks the words without
carry and counts every cell once. -/
def Obligations.Dec13NcDecodesAndCounts : Prop :=
  ∀ (s : State) (ysec : BitVec 8) (idlimit : BitVec 24) (maxpal : BitVec 16), s.mode = .idle →
    let index := ncValue s (widthSel maxpal)
    (∀ i < 4096, index i ≤ maxpal.toNat ∧ paletteAddress s ysec idlimit index i < s.histCells) →
      ∃ t, exec (.dec13Nc ysec idlimit maxpal) s = .next t ∧ t.mode = .idle ∧
        t.wreg.toNat = widthSel maxpal ∧ t.outcnt = 4096 ∧
        (∀ n < 4096, (memRead .idx n t).toNat = index n) ∧
        CountedInto (paletteAddress s ysec idlimit index) 4096 s t

/-- Derived from R125, R140, R142, R146: the first bad cell of a DEC13.NC faults as in PACC, with the first two phases
complete. -/
def Obligations.Dec13NcFaultsAtFirstBadCell : Prop :=
  ∀ (s : State) (ysec : BitVec 8) (idlimit : BitVec 24) (maxpal : BitVec 16) (k : Nat), s.mode = .idle → k < 4096 →
    let index := ncValue s (widthSel maxpal)
    (∀ i < k, index i ≤ maxpal.toNat ∧ paletteAddress s ysec idlimit index i < s.histCells) →
    (maxpal.toNat < index k ∨ s.histCells ≤ paletteAddress s ysec idlimit index k) →
      ∃ t, exec (.dec13Nc ysec idlimit maxpal) s = .next t ∧
        (if maxpal.toNat < index k then
          FaultTaken .palOob (BitVec.ofNat 15 k) (BitVec.ofNat 64 (index k)) t
        else FaultTaken .histOob (BitVec.ofNat 15 k) (BitVec.ofNat 64 (paletteAddress s ysec idlimit index k)) t) ∧
        t.wreg.toNat = widthSel maxpal ∧ t.outcnt = 4096 ∧
        (∀ n < 4096, (memRead .idx n t).toNat = index n) ∧
        CountedInto (paletteAddress s ysec idlimit index) k s t

/-- Derived from R124, R125: a DEC13 has exactly the effect of WSEL, UNPK with the selected width, and PACC in a row,
fault or no fault. -/
def Obligations.Dec13IsItsThreePhases : Prop :=
  ∀ (s : State) (ysec : BitVec 8) (idlimit : BitVec 24) (maxpal : BitVec 16), s.mode = .idle →
    (∃ t u, exec (.wsel maxpal) s = .next t ∧ exec (.unpkWc (BitVec.ofNat 5 (widthSel maxpal))) t = .next u ∧
      exec (.dec13Wc ysec idlimit maxpal) s = exec (.pacc ysec idlimit maxpal) u) ∧
      ∃ t u, exec (.wsel maxpal) s = .next t ∧ exec (.unpkNc (BitVec.ofNat 5 (widthSel maxpal))) t = .next u ∧
        exec (.dec13Nc ysec idlimit maxpal) s = exec (.pacc ysec idlimit maxpal) u

/-! ### What each command leaves unchanged -/

/-- Derived from R25, R81, R90, R123, R143: DEC0, DEC2 and PACC change no memory but HIST, and of HIST only the
counters of their cells; of the registers, only MODE, CAUSE, FINFO and FVAL, and those only by a fault. -/
def Obligations.CountingCommandsFrame : Prop :=
  ∀ (i : Instr) (s t : State), exec i s = .next t →
    (i = .dec0 ∨ (∃ y l, i = .dec2 y l) ∨ ∃ y l m, i = .pacc y l m) →
      SameReadsBut [.hist] s t ∧ SameOwn s t ∧ t.uw = s.uw ∧ t.wreg = s.wreg ∧ t.outcnt = s.outcnt ∧
        (t.mode = .idle → SameRegisters s t) ∧
        (i = .dec0 → ∀ a, (∀ c < 32768, dec0Addr c s ≠ a) → memRead .hist a t = memRead .hist a s) ∧
        (∀ y l, i = .dec2 y l → ∀ a, (∀ c < 4096, dec2Addr y l c s ≠ a) → memRead .hist a t = memRead .hist a s) ∧
        ∀ y l m, i = .pacc y l m → ∀ a, (∀ c < 4096, paccAddr y l c (memRead .idx c s).toNat s ≠ a) →
          memRead .hist a t = memRead .hist a s

/-- Derived from R25, R103, R104, R143: an UNPK changes no memory but entries 0 to 4095 of IDX, and those only with w
of 4 to 16; it never touches WREG, and MODE, CAUSE, FINFO and FVAL only by the fault of w below 4. -/
def Obligations.UnpkFrame : Prop :=
  ∀ (w : BitVec 5) (s t : State), exec (.unpkWc w) s = .next t ∨ exec (.unpkNc w) s = .next t →
    SameReadsBut [.idx] s t ∧ SameOwn s t ∧ t.wreg = s.wreg ∧
      (4 ≤ w.toNat → t.mode = s.mode ∧ t.cause = s.cause ∧ t.finfo = s.finfo ∧ t.fval = s.fval) ∧
      (w.toNat ≤ 16 → t.uw = s.uw) ∧ (w.toNat < 4 → t.outcnt = s.outcnt) ∧
      ∀ n, (w.toNat < 4 ∨ 16 < w.toNat ∨ 4096 ≤ n) → memRead .idx n t = memRead .idx n s

/-- Derived from R25, R124, R125, R143: a DEC13 changes no memory but IDX (entries 0 to 4095) and HIST, and of HIST
only the counters of its cells; it never touches UW, and MODE, CAUSE, FINFO and FVAL only by a fault. -/
def Obligations.Dec13Frame : Prop :=
  ∀ (y : BitVec 8) (l : BitVec 24) (m : BitVec 16) (s t : State),
    exec (.dec13Wc y l m) s = .next t ∨ exec (.dec13Nc y l m) s = .next t →
      SameReadsBut [.idx, .hist] s t ∧ SameOwn s t ∧ t.uw = s.uw ∧
        (t.mode = .idle → t.cause = s.cause ∧ t.finfo = s.finfo ∧ t.fval = s.fval) ∧
        (∀ n, 4096 ≤ n → memRead .idx n t = memRead .idx n s) ∧
        ∀ a, (∀ c < 4096, paccAddr y l c (memRead .idx c t).toNat t ≠ a) → memRead .hist a t = memRead .hist a s

/-! ### The whole machine -/

/-- Derived from R21, R42: no command writes BLK, META, ADD, ADD2, PK or PAL. -/
def Obligations.CommandsWriteNoInputMemory : Prop :=
  ∀ (i : Instr) (s t : State), exec i s = .next t → SameReadsBut [.idx, .hist] s t

/-- R144: a fault lasts until reset: a step from MODE = 1 that is not a reset leaves MODE, CAUSE, FINFO, FVAL, UW,
WREG and OUTCNT as they are; a reset clears them and leaves every memory. -/
def Obligations.FaultLastsUntilReset : Prop :=
  ∀ s t : State, s.mode = .fault → step s = .next t →
    ((∀ rest, s.pending ≠ .reset :: rest) → SameRegisters s t) ∧
      (∀ rest, s.pending = .reset :: rest →
        t.mode = .idle ∧ t.cause = .none ∧ t.finfo = 0 ∧ t.fval = 0 ∧ t.uw = false ∧ t.wreg = 0 ∧ t.outcnt = 0 ∧
          SameReadsBut [] s t)

/-- Derived from R15, R101: UW is cleared by nothing but reset, and set by nothing but an UNPK with w above 16, which
leaves MODE 0. -/
def Obligations.UnsupportedWidthFlagIsSticky : Prop :=
  ∀ s t : State, step s = .next t →
    (s.uw = true → (∀ rest, s.pending ≠ .reset :: rest) → t.uw = true) ∧
      (s.uw = false → t.uw = true →
        t.mode = .idle ∧ ∃ x rest w, s.pending = .writeCsr 0 x :: rest ∧ 16 < BitVec.toNat w ∧
          (decode x = .ok (.unpkWc w) ∨ decode x = .ok (.unpkNc w)))

/-- Derived from R161, R25: no command depends on a register an earlier command left: with other values in UW, WREG,
OUTCNT, a command leaves every memory and MODE, CAUSE, FINFO, FVAL the same. -/
def Obligations.CommandsDoNotReadTheRegisters : Prop :=
  ∀ (i : Instr) (s : State) (uw : Bool) (wreg : BitVec 5) (outcnt : BitVec 13),
    ∃ t t', exec i s = .next t ∧ exec i { s with uw := uw, wreg := wreg, outcnt := outcnt } = .next t' ∧
      (∀ m, t'.cells m = t.cells m) ∧ t'.mode = t.mode ∧ t'.cause = t.cause ∧ t'.finfo = t.finfo ∧ t'.fval = t.fval

/-- Derived from R10 to R24, R140: the invariant (memories in canonical form and inside their sizes, a consistent
fault record, WREG and OUTCNT in their ranges, a bank of one counter or more) is kept by every step. -/
def Obligations.StepKeepsTheInvariant : Prop :=
  ∀ s t : State, Inv s → step s = .next t → Inv t

/-- Derived from R24, R160: the state after reset has the invariant. -/
def Obligations.InvariantAtReset : Prop := Inv State.reset
end

