-- ==== Sys2Proof/Laws/Decode.lean ====
section
/-! SUPPORT. The fields of a command word as numbers (R51), and what the two later tests of decode can do (R61). -/

namespace Sys2Proof

theorem fieldsOf_toNat (x : Word) :
    (fieldsOf x).op.toNat = x.toNat / 2 ^ 60 ∧ (fieldsOf x).cm.toNat = x.toNat / 2 ^ 59 % 2 ∧
      (fieldsOf x).w.toNat = x.toNat / 2 ^ 54 % 32 ∧ (fieldsOf x).rsv.toNat = x.toNat / 2 ^ 48 % 64 ∧
      (fieldsOf x).ysec.toNat = x.toNat / 2 ^ 40 % 256 ∧ (fieldsOf x).maxpal.toNat = x.toNat / 2 ^ 24 % 65536 ∧
      (fieldsOf x).idlimit.toNat = x.toNat % 2 ^ 24 := by
  have := x.isLt
  simp only [fieldsOf, BitVec.extractLsb'_toNat, Nat.shiftRight_eq_div_pow]
  refine ⟨?_, trivial, trivial, trivial, trivial, trivial, ?_⟩ <;> norm_num
  omega

/-- Fields are determined by their numbers. -/
theorem Fields.eq_of_toNat {f g : Fields} (h1 : f.op.toNat = g.op.toNat) (h2 : f.cm.toNat = g.cm.toNat)
    (h3 : f.w.toNat = g.w.toNat) (h4 : f.rsv.toNat = g.rsv.toNat) (h5 : f.ysec.toNat = g.ysec.toNat)
    (h6 : f.maxpal.toNat = g.maxpal.toNat) (h7 : f.idlimit.toNat = g.idlimit.toNat) : f = g := by
  cases f; cases g
  simp only [Fields.mk.injEq]
  exact ⟨BitVec.eq_of_toNat_eq h1, BitVec.eq_of_toNat_eq h2, BitVec.eq_of_toNat_eq h3, BitVec.eq_of_toNat_eq h4,
    BitVec.eq_of_toNat_eq h5, BitVec.eq_of_toNat_eq h6, BitVec.eq_of_toNat_eq h7⟩

theorem requireZero_ok_iff (b : Bool) (r : Except DecodeError Instr) (i : Instr) :
    requireZero b r = .ok i ↔ b = true ∧ r = .ok i := by
  cases b <;> simp [requireZero]

theorem requireWidth_ok_iff (w : BitVec 5) (j i : Instr) : requireWidth w j = .ok i ↔ 4 ≤ w.toNat ∧ j = i := by
  by_cases h : w.toNat < 4 <;> simp [requireWidth, Config.wMin, h]; omega

end Sys2Proof
end

