-- ==== Sys2Proof/Laws/State.lean ====
section
/-! SUPPORT. What each update of State leaves in each field: one lemma a field and update. -/

namespace Sys2Proof.Machine

/-! ### setCells and memWrite -/

@[simp] theorem State.setCells_mode (s : State) (m : MemId) (c : Memory m.width) :
    (s.setCells m c).mode = s.mode := by cases m <;> rfl

@[simp] theorem State.setCells_cause (s : State) (m : MemId) (c : Memory m.width) :
    (s.setCells m c).cause = s.cause := by cases m <;> rfl

@[simp] theorem State.setCells_uw (s : State) (m : MemId) (c : Memory m.width) :
    (s.setCells m c).uw = s.uw := by cases m <;> rfl

@[simp] theorem State.setCells_wreg (s : State) (m : MemId) (c : Memory m.width) :
    (s.setCells m c).wreg = s.wreg := by cases m <;> rfl

@[simp] theorem State.setCells_outcnt (s : State) (m : MemId) (c : Memory m.width) :
    (s.setCells m c).outcnt = s.outcnt := by cases m <;> rfl

@[simp] theorem State.setCells_finfo (s : State) (m : MemId) (c : Memory m.width) :
    (s.setCells m c).finfo = s.finfo := by cases m <;> rfl

@[simp] theorem State.setCells_fval (s : State) (m : MemId) (c : Memory m.width) :
    (s.setCells m c).fval = s.fval := by cases m <;> rfl

@[simp] theorem State.setCells_histCells (s : State) (m : MemId) (c : Memory m.width) :
    (s.setCells m c).histCells = s.histCells := by cases m <;> rfl

@[simp] theorem State.setCells_draw (s : State) (m : MemId) (c : Memory m.width) :
    (s.setCells m c).draw = s.draw := by cases m <;> rfl

@[simp] theorem State.setCells_pending (s : State) (m : MemId) (c : Memory m.width) :
    (s.setCells m c).pending = s.pending := by cases m <;> rfl

@[simp] theorem State.setCells_answer (s : State) (m : MemId) (c : Memory m.width) :
    (s.setCells m c).answer = s.answer := by cases m <;> rfl

@[simp] theorem memWrite_mode (m : MemId) (i : Nat) (v : BitVec m.width) (s : State) :
    (memWrite m i v s).mode = s.mode := State.setCells_mode s m _

@[simp] theorem memWrite_cause (m : MemId) (i : Nat) (v : BitVec m.width) (s : State) :
    (memWrite m i v s).cause = s.cause := State.setCells_cause s m _

@[simp] theorem memWrite_uw (m : MemId) (i : Nat) (v : BitVec m.width) (s : State) :
    (memWrite m i v s).uw = s.uw := State.setCells_uw s m _

@[simp] theorem memWrite_wreg (m : MemId) (i : Nat) (v : BitVec m.width) (s : State) :
    (memWrite m i v s).wreg = s.wreg := State.setCells_wreg s m _

@[simp] theorem memWrite_outcnt (m : MemId) (i : Nat) (v : BitVec m.width) (s : State) :
    (memWrite m i v s).outcnt = s.outcnt := State.setCells_outcnt s m _

@[simp] theorem memWrite_finfo (m : MemId) (i : Nat) (v : BitVec m.width) (s : State) :
    (memWrite m i v s).finfo = s.finfo := State.setCells_finfo s m _

@[simp] theorem memWrite_fval (m : MemId) (i : Nat) (v : BitVec m.width) (s : State) :
    (memWrite m i v s).fval = s.fval := State.setCells_fval s m _

@[simp] theorem memWrite_histCells (m : MemId) (i : Nat) (v : BitVec m.width) (s : State) :
    (memWrite m i v s).histCells = s.histCells := State.setCells_histCells s m _

@[simp] theorem memWrite_draw (m : MemId) (i : Nat) (v : BitVec m.width) (s : State) :
    (memWrite m i v s).draw = s.draw := State.setCells_draw s m _

@[simp] theorem memWrite_pending (m : MemId) (i : Nat) (v : BitVec m.width) (s : State) :
    (memWrite m i v s).pending = s.pending := State.setCells_pending s m _

@[simp] theorem memWrite_answer (m : MemId) (i : Nat) (v : BitVec m.width) (s : State) :
    (memWrite m i v s).answer = s.answer := State.setCells_answer s m _

@[simp] theorem State.cells_setCells_same (s : State) (m : MemId) (c : Memory m.width) :
    (s.setCells m c).cells m = c := by cases m <;> rfl

theorem State.cells_setCells_other (s : State) (m : MemId) (c : Memory m.width) (m' : MemId) (h : m' ≠ m) :
    (s.setCells m c).cells m' = s.cells m' := by
  cases m <;> cases m' <;> first | rfl | exact absurd rfl h

/-! ### raise -/

@[simp] theorem raise_mode (cause : Cause) (info : BitVec 15) (val : Word) (s : State) : (raise cause info val s).mode = .fault := rfl

@[simp] theorem raise_cause (cause : Cause) (info : BitVec 15) (val : Word) (s : State) : (raise cause info val s).cause = cause := rfl

@[simp] theorem raise_uw (cause : Cause) (info : BitVec 15) (val : Word) (s : State) : (raise cause info val s).uw = s.uw := rfl

@[simp] theorem raise_wreg (cause : Cause) (info : BitVec 15) (val : Word) (s : State) : (raise cause info val s).wreg = s.wreg := rfl

@[simp] theorem raise_outcnt (cause : Cause) (info : BitVec 15) (val : Word) (s : State) : (raise cause info val s).outcnt = s.outcnt := rfl

@[simp] theorem raise_finfo (cause : Cause) (info : BitVec 15) (val : Word) (s : State) : (raise cause info val s).finfo = info := rfl

@[simp] theorem raise_fval (cause : Cause) (info : BitVec 15) (val : Word) (s : State) : (raise cause info val s).fval = val := rfl

@[simp] theorem raise_blk (cause : Cause) (info : BitVec 15) (val : Word) (s : State) : (raise cause info val s).blk = s.blk := rfl

@[simp] theorem raise_metadata (cause : Cause) (info : BitVec 15) (val : Word) (s : State) : (raise cause info val s).metadata = s.metadata := rfl

@[simp] theorem raise_add (cause : Cause) (info : BitVec 15) (val : Word) (s : State) : (raise cause info val s).add = s.add := rfl

@[simp] theorem raise_add2 (cause : Cause) (info : BitVec 15) (val : Word) (s : State) : (raise cause info val s).add2 = s.add2 := rfl

@[simp] theorem raise_pk (cause : Cause) (info : BitVec 15) (val : Word) (s : State) : (raise cause info val s).pk = s.pk := rfl

@[simp] theorem raise_pal (cause : Cause) (info : BitVec 15) (val : Word) (s : State) : (raise cause info val s).pal = s.pal := rfl

@[simp] theorem raise_idx (cause : Cause) (info : BitVec 15) (val : Word) (s : State) : (raise cause info val s).idx = s.idx := rfl

@[simp] theorem raise_hist (cause : Cause) (info : BitVec 15) (val : Word) (s : State) : (raise cause info val s).hist = s.hist := rfl

@[simp] theorem raise_histCells (cause : Cause) (info : BitVec 15) (val : Word) (s : State) : (raise cause info val s).histCells = s.histCells := rfl

@[simp] theorem raise_draw (cause : Cause) (info : BitVec 15) (val : Word) (s : State) : (raise cause info val s).draw = s.draw := rfl

@[simp] theorem raise_pending (cause : Cause) (info : BitVec 15) (val : Word) (s : State) : (raise cause info val s).pending = s.pending := rfl

@[simp] theorem raise_answer (cause : Cause) (info : BitVec 15) (val : Word) (s : State) : (raise cause info val s).answer = s.answer := rfl

@[simp] theorem raise_cells (cause : Cause) (info : BitVec 15) (val : Word) (s : State) (m : MemId) : (raise cause info val s).cells m = s.cells m := by
  cases m <;> rfl

/-! ### takeReset -/

@[simp] theorem takeReset_mode (s : State) : (takeReset s).mode = .idle := rfl

@[simp] theorem takeReset_cause (s : State) : (takeReset s).cause = .none := rfl

@[simp] theorem takeReset_uw (s : State) : (takeReset s).uw = false := rfl

@[simp] theorem takeReset_wreg (s : State) : (takeReset s).wreg = 0 := rfl

@[simp] theorem takeReset_outcnt (s : State) : (takeReset s).outcnt = 0 := rfl

@[simp] theorem takeReset_finfo (s : State) : (takeReset s).finfo = 0 := rfl

@[simp] theorem takeReset_fval (s : State) : (takeReset s).fval = 0 := rfl

@[simp] theorem takeReset_blk (s : State) : (takeReset s).blk = s.blk := rfl

@[simp] theorem takeReset_metadata (s : State) : (takeReset s).metadata = s.metadata := rfl

@[simp] theorem takeReset_add (s : State) : (takeReset s).add = s.add := rfl

@[simp] theorem takeReset_add2 (s : State) : (takeReset s).add2 = s.add2 := rfl

@[simp] theorem takeReset_pk (s : State) : (takeReset s).pk = s.pk := rfl

@[simp] theorem takeReset_pal (s : State) : (takeReset s).pal = s.pal := rfl

@[simp] theorem takeReset_idx (s : State) : (takeReset s).idx = s.idx := rfl

@[simp] theorem takeReset_hist (s : State) : (takeReset s).hist = s.hist := rfl

@[simp] theorem takeReset_histCells (s : State) : (takeReset s).histCells = s.histCells := rfl

@[simp] theorem takeReset_draw (s : State) : (takeReset s).draw = s.draw := rfl

@[simp] theorem takeReset_pending (s : State) : (takeReset s).pending = s.pending := rfl

@[simp] theorem takeReset_answer (s : State) : (takeReset s).answer = s.answer := rfl

@[simp] theorem takeReset_cells (s : State) (m : MemId) : (takeReset s).cells m = s.cells m := by
  cases m <;> rfl

/-! ### flagUnsupportedWidth -/

@[simp] theorem flagUnsupportedWidth_mode (s : State) : (flagUnsupportedWidth s).mode = s.mode := rfl

@[simp] theorem flagUnsupportedWidth_cause (s : State) : (flagUnsupportedWidth s).cause = s.cause := rfl

@[simp] theorem flagUnsupportedWidth_uw (s : State) : (flagUnsupportedWidth s).uw = true := rfl

@[simp] theorem flagUnsupportedWidth_wreg (s : State) : (flagUnsupportedWidth s).wreg = s.wreg := rfl

@[simp] theorem flagUnsupportedWidth_outcnt (s : State) : (flagUnsupportedWidth s).outcnt = 0 := rfl

@[simp] theorem flagUnsupportedWidth_finfo (s : State) : (flagUnsupportedWidth s).finfo = s.finfo := rfl

@[simp] theorem flagUnsupportedWidth_fval (s : State) : (flagUnsupportedWidth s).fval = s.fval := rfl

@[simp] theorem flagUnsupportedWidth_blk (s : State) : (flagUnsupportedWidth s).blk = s.blk := rfl

@[simp] theorem flagUnsupportedWidth_metadata (s : State) : (flagUnsupportedWidth s).metadata = s.metadata := rfl

@[simp] theorem flagUnsupportedWidth_add (s : State) : (flagUnsupportedWidth s).add = s.add := rfl

@[simp] theorem flagUnsupportedWidth_add2 (s : State) : (flagUnsupportedWidth s).add2 = s.add2 := rfl

@[simp] theorem flagUnsupportedWidth_pk (s : State) : (flagUnsupportedWidth s).pk = s.pk := rfl

@[simp] theorem flagUnsupportedWidth_pal (s : State) : (flagUnsupportedWidth s).pal = s.pal := rfl

@[simp] theorem flagUnsupportedWidth_idx (s : State) : (flagUnsupportedWidth s).idx = s.idx := rfl

@[simp] theorem flagUnsupportedWidth_hist (s : State) : (flagUnsupportedWidth s).hist = s.hist := rfl

@[simp] theorem flagUnsupportedWidth_histCells (s : State) : (flagUnsupportedWidth s).histCells = s.histCells := rfl

@[simp] theorem flagUnsupportedWidth_draw (s : State) : (flagUnsupportedWidth s).draw = s.draw := rfl

@[simp] theorem flagUnsupportedWidth_pending (s : State) : (flagUnsupportedWidth s).pending = s.pending := rfl

@[simp] theorem flagUnsupportedWidth_answer (s : State) : (flagUnsupportedWidth s).answer = s.answer := rfl

@[simp] theorem flagUnsupportedWidth_cells (s : State) (m : MemId) : (flagUnsupportedWidth s).cells m = s.cells m := by
  cases m <;> rfl

/-! ### setOutcntFull -/

@[simp] theorem setOutcntFull_mode (s : State) : (setOutcntFull s).mode = s.mode := rfl

@[simp] theorem setOutcntFull_cause (s : State) : (setOutcntFull s).cause = s.cause := rfl

@[simp] theorem setOutcntFull_uw (s : State) : (setOutcntFull s).uw = s.uw := rfl

@[simp] theorem setOutcntFull_wreg (s : State) : (setOutcntFull s).wreg = s.wreg := rfl

@[simp] theorem setOutcntFull_outcnt (s : State) : (setOutcntFull s).outcnt = BitVec.ofNat 13 Config.cells := rfl

@[simp] theorem setOutcntFull_finfo (s : State) : (setOutcntFull s).finfo = s.finfo := rfl

@[simp] theorem setOutcntFull_fval (s : State) : (setOutcntFull s).fval = s.fval := rfl

@[simp] theorem setOutcntFull_blk (s : State) : (setOutcntFull s).blk = s.blk := rfl

@[simp] theorem setOutcntFull_metadata (s : State) : (setOutcntFull s).metadata = s.metadata := rfl

@[simp] theorem setOutcntFull_add (s : State) : (setOutcntFull s).add = s.add := rfl

@[simp] theorem setOutcntFull_add2 (s : State) : (setOutcntFull s).add2 = s.add2 := rfl

@[simp] theorem setOutcntFull_pk (s : State) : (setOutcntFull s).pk = s.pk := rfl

@[simp] theorem setOutcntFull_pal (s : State) : (setOutcntFull s).pal = s.pal := rfl

@[simp] theorem setOutcntFull_idx (s : State) : (setOutcntFull s).idx = s.idx := rfl

@[simp] theorem setOutcntFull_hist (s : State) : (setOutcntFull s).hist = s.hist := rfl

@[simp] theorem setOutcntFull_histCells (s : State) : (setOutcntFull s).histCells = s.histCells := rfl

@[simp] theorem setOutcntFull_draw (s : State) : (setOutcntFull s).draw = s.draw := rfl

@[simp] theorem setOutcntFull_pending (s : State) : (setOutcntFull s).pending = s.pending := rfl

@[simp] theorem setOutcntFull_answer (s : State) : (setOutcntFull s).answer = s.answer := rfl

@[simp] theorem setOutcntFull_cells (s : State) (m : MemId) : (setOutcntFull s).cells m = s.cells m := by
  cases m <;> rfl

/-! ### setWreg -/

@[simp] theorem setWreg_mode (w : Nat) (s : State) : (setWreg w s).mode = s.mode := rfl

@[simp] theorem setWreg_cause (w : Nat) (s : State) : (setWreg w s).cause = s.cause := rfl

@[simp] theorem setWreg_uw (w : Nat) (s : State) : (setWreg w s).uw = s.uw := rfl

@[simp] theorem setWreg_wreg (w : Nat) (s : State) : (setWreg w s).wreg = BitVec.ofNat 5 w := rfl

@[simp] theorem setWreg_outcnt (w : Nat) (s : State) : (setWreg w s).outcnt = s.outcnt := rfl

@[simp] theorem setWreg_finfo (w : Nat) (s : State) : (setWreg w s).finfo = s.finfo := rfl

@[simp] theorem setWreg_fval (w : Nat) (s : State) : (setWreg w s).fval = s.fval := rfl

@[simp] theorem setWreg_blk (w : Nat) (s : State) : (setWreg w s).blk = s.blk := rfl

@[simp] theorem setWreg_metadata (w : Nat) (s : State) : (setWreg w s).metadata = s.metadata := rfl

@[simp] theorem setWreg_add (w : Nat) (s : State) : (setWreg w s).add = s.add := rfl

@[simp] theorem setWreg_add2 (w : Nat) (s : State) : (setWreg w s).add2 = s.add2 := rfl

@[simp] theorem setWreg_pk (w : Nat) (s : State) : (setWreg w s).pk = s.pk := rfl

@[simp] theorem setWreg_pal (w : Nat) (s : State) : (setWreg w s).pal = s.pal := rfl

@[simp] theorem setWreg_idx (w : Nat) (s : State) : (setWreg w s).idx = s.idx := rfl

@[simp] theorem setWreg_hist (w : Nat) (s : State) : (setWreg w s).hist = s.hist := rfl

@[simp] theorem setWreg_histCells (w : Nat) (s : State) : (setWreg w s).histCells = s.histCells := rfl

@[simp] theorem setWreg_draw (w : Nat) (s : State) : (setWreg w s).draw = s.draw := rfl

@[simp] theorem setWreg_pending (w : Nat) (s : State) : (setWreg w s).pending = s.pending := rfl

@[simp] theorem setWreg_answer (w : Nat) (s : State) : (setWreg w s).answer = s.answer := rfl

@[simp] theorem setWreg_cells (w : Nat) (s : State) (m : MemId) : (setWreg w s).cells m = s.cells m := by
  cases m <;> rfl

end Sys2Proof.Machine
end

