-- ==== Sys2Proof/Laws/Memory.lean ====
section
/-! SUPPORT. Reading after writing, and the canonical form of memory: every operation that writes keeps it, and the state
after reset has it. -/

namespace Sys2Proof.Machine

namespace Memory

variable {width : Nat} (mem : Memory width) (i j : Nat) (v : BitVec width)

theorem get?_set_same : (Memory.set mem i v).get? i = some v := by
  induction mem with
  | nil => simp [Memory.set, Memory.get?]
  | cons e rest ih =>
    obtain ⟨k, u⟩ := e
    by_cases h1 : i < k
    · simp [Memory.set, Memory.get?, h1]
    · by_cases h2 : i = k
      · simp [Memory.set, Memory.get?, h2]
      · simp [Memory.set, Memory.get?, h1, h2, ih]

theorem get?_set_other (h : j ≠ i) : (Memory.set mem i v).get? j = Memory.get? mem j := by
  induction mem with
  | nil => simp [Memory.set, Memory.get?, h]
  | cons e rest ih =>
    obtain ⟨k, u⟩ := e
    by_cases h1 : i < k
    · simp [Memory.set, Memory.get?, h1, h]
    · by_cases h2 : i = k
      · subst h2; simp [Memory.set, Memory.get?, h]
      · simp [Memory.set, Memory.get?, h1, h2, ih]

/-- What a write leaves listed: the new entry and entries that were listed before. -/
theorem mem_set {e : Nat × BitVec width} (h : e ∈ Memory.set mem i v) : e = (i, v) ∨ e ∈ mem := by
  induction mem with
  | nil => simpa [Memory.set] using h
  | cons x rest ih =>
    obtain ⟨k, u⟩ := x
    by_cases h1 : i < k
    · simpa [Memory.set, h1] using h
    · by_cases h2 : i = k
      · subst h2
        simp only [Memory.set, lt_irrefl, if_false, if_true, List.mem_cons] at h ⊢
        tauto
      · simp only [Memory.set, h1, h2, if_false, List.mem_cons] at h ⊢
        rcases h with h | h
        · exact .inr (.inl h)
        · exact (ih h).imp id .inr

theorem wf_set (h : Memory.wf mem) : Memory.wf (Memory.set mem i v) := by
  induction mem with
  | nil => simp [Memory.set, Memory.wf]
  | cons x rest ih =>
    obtain ⟨k, u⟩ := x
    obtain ⟨hk, hrest⟩ := List.pairwise_cons.1 h
    by_cases h1 : i < k
    · simp only [Memory.set, h1, if_true, Memory.wf]
      refine List.pairwise_cons.2 ⟨fun e he => ?_, h⟩
      rcases List.mem_cons.1 he with rfl | he
      · exact h1
      · exact lt_trans h1 (hk e he)
    · by_cases h2 : i = k
      · subst h2
        simp only [Memory.set, lt_irrefl, if_false, if_true, Memory.wf]
        exact List.pairwise_cons.2 ⟨hk, hrest⟩
      · simp only [Memory.set, h1, h2, if_false, Memory.wf]
        refine List.pairwise_cons.2 ⟨fun e he => ?_, ih hrest⟩
        rcases mem_set rest i v he with rfl | he
        · exact lt_of_le_of_ne (not_lt.1 h1) (Ne.symm h2)
        · exact hk e he

end Memory

theorem memRead_memWrite_same (m : MemId) (i : Nat) (v : BitVec m.width) (s : State) :
    memRead m i (memWrite m i v s) = v := by
  simp [memRead, memWrite, Memory.get?_set_same]

theorem memRead_memWrite_other (m : MemId) (i : Nat) (v : BitVec m.width) (m' : MemId) (j : Nat) (s : State)
    (h : m' ≠ m ∨ j ≠ i) : memRead m' j (memWrite m i v s) = memRead m' j s := by
  by_cases hm : m' = m
  · subst hm
    have hj : j ≠ i := h.resolve_left (by simp)
    simp [memRead, memWrite, Memory.get?_set_other _ _ _ _ hj]
  · simp [memRead, memWrite, State.cells_setCells_other _ _ _ _ hm]

/-- A read depends on the memory's written entries and on the power-up alone. -/
theorem memRead_congr {s t : State} (m : MemId) (i : Nat) (hc : t.cells m = s.cells m) (hd : t.draw = s.draw) :
    memRead m i t = memRead m i s := by
  simp [memRead, hc, hd]

theorem memRead_raise (cause : Cause) (info : BitVec 15) (val : Word) (s : State) (m : MemId) (i : Nat) :
    memRead m i (raise cause info val s) = memRead m i s := memRead_congr m i (by simp) rfl

theorem memRead_takeReset (s : State) (m : MemId) (i : Nat) : memRead m i (takeReset s) = memRead m i s :=
  memRead_congr m i (by simp) rfl

theorem memRead_flagUnsupportedWidth (s : State) (m : MemId) (i : Nat) :
    memRead m i (flagUnsupportedWidth s) = memRead m i s := memRead_congr m i (by simp) rfl

theorem memRead_setOutcntFull (s : State) (m : MemId) (i : Nat) :
    memRead m i (setOutcntFull s) = memRead m i s := memRead_congr m i (by simp) rfl

theorem memRead_setWreg (w : Nat) (s : State) (m : MemId) (i : Nat) :
    memRead m i (setWreg w s) = memRead m i s := memRead_congr m i (by simp) rfl

/-- Writing an entry inside its memory keeps every memory in canonical form. -/
theorem memoriesOk_memWrite (m : MemId) (i : Nat) (v : BitVec m.width) (s : State) (hi : i < s.sizeOf m)
    (h : MemoriesOk s) : MemoriesOk (memWrite m i v s) := by
  have hsize : ∀ m', (memWrite m i v s).sizeOf m' = s.sizeOf m' := by
    intro m'; cases m' <;> simp [State.sizeOf]
  intro m'
  rw [hsize m']
  by_cases hm : m' = m
  · subst hm
    simp only [memWrite, State.cells_setCells_same]
    refine ⟨Memory.wf_set _ _ _ (h m').1, fun e he => ?_⟩
    rcases Memory.mem_set _ _ _ he with rfl | he
    · exact hi
    · exact (h m').2 e he
  · simp only [memWrite, State.cells_setCells_other _ _ _ _ hm]
    exact h m'

/-- A state with the same memories and the same bank size has the canonical form if the other has. -/
theorem memoriesOk_congr {s t : State} (hc : ∀ m, t.cells m = s.cells m) (hn : t.histCells = s.histCells)
    (h : MemoriesOk s) : MemoriesOk t := by
  intro m
  have hsize : t.sizeOf m = s.sizeOf m := by cases m <;> simp [State.sizeOf, hn]
  rw [hc m, hsize]
  exact h m

theorem memoriesOk_reset : MemoriesOk State.reset := by
  intro m
  cases m <;> exact ⟨List.Pairwise.nil, fun e he => absurd he (by simp [State.cells, State.reset])⟩

end Sys2Proof.Machine
end

