-- ==== Sys2Proof/Laws/Histogram.lean ====
section
/-! SUPPORT. What an increment can do (R72), and what a loop over cells can do: it ends idle after its last cell or at the
first cell that faults (R12, R146). -/

namespace Sys2Proof.Machine

theorem histInc_outside (a c : Nat) (s : State) (h : s.histCells ≤ a) :
    histInc a c s = raise .histOob (BitVec.ofNat 15 c) (BitVec.ofNat 64 a) s := by simp [histInc, h]

theorem histInc_inside (a c : Nat) (s : State) (h : a < s.histCells) :
    histInc a c s = memWrite .hist a (memRead .hist a s + 1) s := by simp [histInc, Nat.not_le.2 h]

/-- An increment raises HIST_OOB or adds 1 to one counter inside the bank. -/
theorem histInc_cases (a c : Nat) (s : State) :
    (s.histCells ≤ a ∧ histInc a c s = raise .histOob (BitVec.ofNat 15 c) (BitVec.ofNat 64 a) s) ∨
      (a < s.histCells ∧ histInc a c s = memWrite .hist a (memRead .hist a s + 1) s) := by
  rcases Nat.lt_or_ge a s.histCells with h | h
  · exact .inr ⟨h, histInc_inside a c s h⟩
  · exact .inl ⟨h, histInc_outside a c s h⟩

/-- An increment of an idle block leaves it idle exactly if the address is inside the bank. -/
theorem histInc_idle_iff (a c : Nat) (s : State) (hs : s.mode = .idle) :
    (histInc a c s).mode = .idle ↔ a < s.histCells := by
  rcases histInc_cases a c s with ⟨h, e⟩ | ⟨h, e⟩ <;> rw [e] <;> simp [hs] <;> omega

theorem mode_idle_of_ne_fault {s : State} (h : s.mode ≠ .fault) : s.mode = .idle := by
  cases hm : s.mode
  · rfl
  · exact absurd hm h

/-- What a loop over cells can do, for a `P c s` that holds before cell `c` and that every cell that does not fault keeps: it
ends idle after its last cell, or at the first cell that faults. -/
theorem forCells_cases (cell : Nat → State → State) (P : Nat → State → Prop) :
    ∀ (n c : Nat) (s : State), s.mode = .idle → P c s →
      (∀ d t, c ≤ d → d < c + n → t.mode = .idle → P d t → (cell d t).mode = .idle → P (d + 1) (cell d t)) →
      ((forCells cell n c s).mode = .idle ∧ P (c + n) (forCells cell n c s)) ∨
        ∃ d t, c ≤ d ∧ d < c + n ∧ t.mode = .idle ∧ P d t ∧ (cell d t).mode = .fault ∧
          forCells cell n c s = cell d t := by
  intro n
  induction n with
  | zero => intro c s hs hP _; exact .inl ⟨hs, hP⟩
  | succ n ih =>
    intro c s hs hP keep
    by_cases hf : (cell c s).mode = .fault
    · refine .inr ⟨c, s, le_refl c, by omega, hs, hP, hf, ?_⟩
      simp [forCells, hf]
    · have hi := mode_idle_of_ne_fault hf
      have hstep : forCells cell (n + 1) c s = forCells cell n (c + 1) (cell c s) := by simp [forCells, hf]
      have hP' := keep c s (le_refl c) (by omega) hs hP hi
      rcases ih (c + 1) (cell c s) hi hP' (fun d t h1 h2 => keep d t (by omega) (by omega)) with h | h
      · rw [hstep]; rw [show c + (n + 1) = c + 1 + n by omega]; exact .inl h
      · obtain ⟨d, t, h1, h2, h3⟩ := h
        rw [hstep]; exact .inr ⟨d, t, by omega, by omega, h3⟩

/-- A loop whose cells keep a property keeps it, whether or not it faults. -/
theorem forCells_keeps (cell : Nat → State → State) (P : State → Prop) (n c : Nat) (s : State) (hP : P s)
    (keep : ∀ d t, c ≤ d → d < c + n → P t → P (cell d t)) : P (forCells cell n c s) := by
  induction n generalizing c s with
  | zero => exact hP
  | succ n ih =>
    have h1 := keep c s (le_refl c) (by omega) hP
    by_cases hf : (cell c s).mode = .fault
    · simpa [forCells, hf] using h1
    · simpa [forCells, hf] using ih (c + 1) (cell c s) h1 (fun d t h2 h3 => keep d t (by omega) (by omega))

/-- A loop is the loop over its first cells and then, if none of them faulted, over the others. -/
theorem forCells_add (cell : Nat → State → State) (n k c : Nat) (s : State) (hs : s.mode = .idle) :
    forCells cell (n + k) c s =
      if (forCells cell n c s).mode = .fault then forCells cell n c s
      else forCells cell k (c + n) (forCells cell n c s) := by
  induction n generalizing c s with
  | zero => simp [forCells, hs]
  | succ n ih =>
    rw [show n + 1 + k = (n + k) + 1 by omega]
    by_cases hf : (cell c s).mode = .fault
    · simp [forCells, hf]
    · have := ih (c + 1) (cell c s) (mode_idle_of_ne_fault hf)
      simp only [forCells, hf, if_false]
      rw [this, show c + 1 + n = c + (n + 1) by omega]

theorem hits_zero (addr : Nat → Nat) (a : Nat) : hits addr 0 a = 0 := rfl

theorem hits_succ (addr : Nat → Nat) (n a : Nat) :
    hits addr (n + 1) a = hits addr n a + if addr n = a then 1 else 0 := by
  simp [hits, List.range_succ, List.countP_cons, beq_iff_eq]

/-- `t` is `s` with the cells 0 to `n` - 1 counted, each at its `addr`, and nothing else changed. -/
structure Counted (addr : Nat → Nat) (n : Nat) (s t : State) : Prop where
  onlyHist : ∃ h, t = { s with hist := h }
  counts : CountedInto addr n s t

theorem counted_zero (addr : Nat → Nat) (s : State) : Counted addr 0 s s :=
  ⟨⟨s.hist, rfl⟩, fun a => by simp [hits_zero]⟩

/-- Counting one more cell at its address. -/
theorem Counted.succ {addr : Nat → Nat} {n : Nat} {s t : State} (h : Counted addr n s t) :
    Counted addr (n + 1) s (memWrite .hist (addr n) (memRead .hist (addr n) t + 1) t) := by
  obtain ⟨g, rfl⟩ := h.onlyHist
  refine ⟨⟨_, rfl⟩, fun a => ?_⟩
  by_cases ha : a = addr n
  · subst ha
    rw [memRead_memWrite_same, h.counts, hits_succ, if_pos rfl, BitVec.ofNat_add]
    exact add_assoc _ _ _
  · rw [memRead_memWrite_other _ _ _ _ _ _ (.inr ha), h.counts, hits_succ, if_neg (Ne.symm ha), Nat.add_zero]

/-- Other memories read the same after counting. -/
theorem Counted.memRead_other {addr : Nat → Nat} {n : Nat} {s t : State} (h : Counted addr n s t) (m : MemId)
    (hm : m ≠ .hist) (i : Nat) : memRead m i t = memRead m i s := by
  obtain ⟨g, rfl⟩ := h.onlyHist
  exact memRead_congr m i (by cases m <;> first | rfl | exact absurd rfl hm) rfl

/-- A loop each of whose cells is an increment inside the bank counts all of them and stays idle. -/
theorem forCells_all_counted (cell : Nat → State → State) (addr : Nat → Nat) (n : Nat) (s : State)
    (hs : s.mode = .idle)
    (hcell : ∀ c < n, ∀ h, cell c { s with hist := h } = histInc (addr c) c { s with hist := h })
    (hin : ∀ c < n, addr c < s.histCells) :
    (forCells cell n 0 s).mode = .idle ∧ Counted addr n s (forCells cell n 0 s) := by
  have keep : ∀ c t, c < n → Counted addr c s t →
      (cell c t).mode = .idle ∧ Counted addr (c + 1) s (cell c t) := by
    intro c t hc h
    have h' := h.succ
    obtain ⟨g, rfl⟩ := h.onlyHist
    rw [hcell c hc g, histInc_inside _ _ { s with hist := g } (hin c hc)]
    exact ⟨by simpa using hs, h'⟩
  rcases forCells_cases cell (fun c t => Counted addr c s t) n 0 s hs (counted_zero addr s)
    (fun d t _ hd _ hP _ => (keep d t (by omega) hP).2) with h | ⟨d, t, _, hd, _, hP, hf, _⟩
  · simpa using h
  · simp [(keep d t (by omega) hP).1] at hf

/-- A loop whose first faulting cell is `k`: the cells below `k` are counted, and cell `k` leaves its fault record and
nothing else (R146). -/
theorem forCells_first_fault (cell : Nat → State → State) (addr : Nat → Nat) (n k : Nat) (s : State)
    (cause : Cause) (info : BitVec 15) (val : Word) (hs : s.mode = .idle) (hk : k < n)
    (hcell : ∀ c < k, ∀ h, cell c { s with hist := h } = histInc (addr c) c { s with hist := h })
    (hin : ∀ c < k, addr c < s.histCells)
    (hbad : ∀ h, cell k { s with hist := h } = raise cause info val { s with hist := h }) :
    ∃ t, Counted addr k s t ∧ forCells cell n 0 s = raise cause info val t := by
  obtain ⟨hidle, hcount⟩ := forCells_all_counted cell addr k s hs hcell hin
  refine ⟨_, hcount, ?_⟩
  obtain ⟨g, hg⟩ := hcount.onlyHist
  have hbad' := hbad g
  rw [← hg] at hbad'
  obtain ⟨m, rfl⟩ : ∃ m, n = k + (m + 1) := ⟨n - k - 1, by omega⟩
  rw [forCells_add cell k (m + 1) 0 s hs, if_neg (by simp [hidle])]
  simp [forCells, hbad']

end Sys2Proof.Machine
end

