-- ==== Sys2Proof/Laws/Unpack.lean ====
section
/-! SUPPORT. What the pieces of the unpacker can do: taking values from the accumulator, feeding a half word, taking the
values of a word without carry (R103, R104), and the outer loop (R100). -/

namespace Sys2Proof.Machine

/-- IDX of `b'` is IDX of `b` with the `m` values `v 0`, `v 1`, ... written from entry `b.n` on. -/
def Emitted (b b' : Bsu) (m : Nat) (v : Nat → BitVec 16) : Prop :=
  b'.n = b.n + m ∧ ∀ j, b'.idx.get? j = if b.n ≤ j ∧ j < b.n + m then some (v (j - b.n)) else b.idx.get? j

theorem emitted_none (b : Bsu) (v : Nat → BitVec 16) : Emitted b b 0 v :=
  ⟨rfl, fun j => by rw [if_neg (by omega)]⟩

/-- Writing one value and then `m` more. -/
theorem emitted_cons {b c b' : Bsu} {m : Nat} {v : Nat → BitVec 16} (hn : c.n = b.n + 1)
    (hidx : c.idx = b.idx.set b.n (v 0)) (h : Emitted c b' m fun j => v (j + 1)) : Emitted b b' (m + 1) v := by
  refine ⟨by rw [h.1, hn]; omega, fun j => ?_⟩
  rw [h.2 j, hn]
  by_cases h0 : j = b.n
  · subst h0
    rw [if_neg (by omega), if_pos (by omega), hidx, Memory.get?_set_same, Nat.sub_self]
  · rw [hidx, Memory.get?_set_other _ _ _ _ h0]
    by_cases h1 : b.n + 1 ≤ j ∧ j < b.n + 1 + m
    · rw [if_pos h1, if_pos (by omega)]
      exact congrArg (some ∘ v) (show j - (b.n + 1) + 1 = j - b.n by omega)
    · rw [if_neg h1, if_neg (by omega)]

/-- Draining the accumulator: with fuel enough, it takes as many values as there are whole ones, or as many as the buffer
still lacks, from the lowest bits up. -/
theorem wcDrain_spec (w : Nat) (hw : 0 < w) :
    ∀ (fuel : Nat) (b : Bsu), b.nbits ≤ fuel → b.n ≤ Config.cells →
      let m := min (b.nbits / w) (Config.cells - b.n)
      let b' := wcDrain w fuel b
      Emitted b b' m (fun j => maskedValue w (b.acc >>> (j * w))) ∧
        b'.acc = b.acc >>> (m * w) ∧ b'.nbits = b.nbits - m * w ∧ b'.k = b.k := by
  intro fuel
  induction fuel with
  | zero =>
    intro b hb hn
    have h0 : b.nbits = 0 := by omega
    simp [wcDrain, h0, emitted_none]
  | succ fuel ih =>
    intro b hb hn
    by_cases hgo : w ≤ b.nbits ∧ b.n ≠ Config.cells
    · have hlt : b.n < Config.cells := lt_of_le_of_ne hn hgo.2
      have hdiv : b.nbits / w = (b.nbits - w) / w + 1 := by
        conv_lhs => rw [← Nat.sub_add_cancel hgo.1, Nat.add_div_right _ hw]
      have hmin : min (b.nbits / w) (Config.cells - b.n)
          = min ((b.nbits - w) / w) (Config.cells - (b.n + 1)) + 1 := by
        rw [hdiv]; generalize (b.nbits - w) / w = q; omega
      have hrun : wcDrain w (fuel + 1) b = wcDrain w fuel (wcTake w b) := if_pos hgo
      obtain ⟨he, ha, hb', hk⟩ := ih (wcTake w b) (show b.nbits - w ≤ fuel by omega) (show b.n + 1 ≤ _ by omega)
      simp only [hrun, hmin]
      refine ⟨emitted_cons (c := wcTake w b) rfl ?_ ?_, ?_, ?_, hk⟩
      · simp [wcTake, bsuEmit]
      · simpa [wcTake, bsuEmit, BitVec.shiftRight_add, Nat.add_mul, Nat.add_comm] using he
      · rw [ha]
        simp [wcTake, bsuEmit, BitVec.shiftRight_add, Nat.add_mul, Nat.add_comm]
      · rw [hb']
        simp only [wcTake, bsuEmit, Nat.add_mul]
        omega
    · have hm : min (b.nbits / w) (Config.cells - b.n) = 0 := by
        by_cases hw' : w ≤ b.nbits
        · have hf : b.n = Config.cells := by simpa [hw'] using hgo
          rw [hf, Nat.sub_self, Nat.min_zero]
        · rw [Nat.div_eq_of_lt (by omega)]; simp
      have hrun : wcDrain w (fuel + 1) b = b := if_neg hgo
      simp [hrun, hm, emitted_none]

/-- One word without carry, from slot `j` on: `count` values, or as many as the buffer still lacks. -/
theorem ncTake_spec (w : Nat) (word : Word) :
    ∀ (count j : Nat) (b : Bsu), b.n ≤ Config.cells →
      let m := min count (Config.cells - b.n)
      let b' := ncTake w word count j b
      Emitted b b' m (fun i => maskedValue w (word >>> ((j + i) * w))) ∧ b'.k = b.k := by
  intro count
  induction count with
  | zero => intro j b _; simp [ncTake, emitted_none]
  | succ count ih =>
    intro j b hn
    by_cases hf : b.n = Config.cells
    · simp [ncTake, hf, emitted_none]
    · have hlt : b.n < Config.cells := lt_of_le_of_ne hn hf
      have hmin : min (count + 1) (Config.cells - b.n) = min count (Config.cells - (b.n + 1)) + 1 := by omega
      obtain ⟨he, hk⟩ := ih (j + 1) (bsuEmit (maskedValue w (word >>> (j * w))) b) (show b.n + 1 ≤ _ by omega)
      simp only [ncTake, hf, if_false, hmin]
      refine ⟨emitted_cons (c := bsuEmit (maskedValue w (word >>> (j * w))) b) rfl (by simp [bsuEmit]) ?_, hk⟩
      simpa [bsuEmit, Nat.add_assoc, Nat.add_comm 1] using he

/-- The outer loop, for a `P` that every word read before the 4096th value keeps and a count of words that runs out only
when the buffer is full: it ends full, with `P`. -/
theorem unpackWords_cases (takeWord : Word → Bsu → Bsu) (pk : Nat → Word) (P : Bsu → Prop)
    (keep : ∀ b, P b → b.n ≠ Config.cells → P (takeWord (pk b.k) b)) :
    ∀ (fuel : Nat) (b : Bsu), P b →
      P (unpackWords takeWord pk fuel b) ∧
        ((∀ b, P b → b.n ≠ Config.cells → (takeWord (pk b.k) b).k = b.k + 1) →
          (∀ b, P b → Config.pkWords ≤ b.k → b.n = Config.cells) → Config.pkWords ≤ b.k + fuel →
            (unpackWords takeWord pk fuel b).n = Config.cells) := by
  intro fuel
  induction fuel with
  | zero => intro b hP; exact ⟨hP, fun _ hend hk => hend b hP (by omega)⟩
  | succ fuel ih =>
    intro b hP
    by_cases hf : b.n = Config.cells
    · have hrun : unpackWords takeWord pk (fuel + 1) b = b := if_pos hf
      rw [hrun]
      exact ⟨hP, fun _ _ _ => hf⟩
    · simp only [unpackWords, hf, if_false]
      obtain ⟨h1, h2⟩ := ih (takeWord (pk b.k) b) (keep b hP hf)
      exact ⟨h1, fun hk hend hle => h2 hk hend (by rw [hk b hP hf]; omega)⟩

/-- An unpack writes IDX and OUTCNT and nothing else. -/
theorem unpackInto_eq (takeWord : Word → Bsu → Bsu) (s : State) :
    ∃ idx, unpackInto takeWord s = { s with idx := idx, outcnt := 4096 } := ⟨_, rfl⟩

/-- What an UNPK's rule does, by its width operand (R57, R101, R103, R104). -/
theorem unpkRule_cases (i : Instr) (w : BitVec 5) (unpack : Nat → State → State) (s : State) :
    (w.toNat < 4 ∧ unpkRule i w unpack s = raise .widthBelowMin 0 (encode i) s) ∨
      (16 < w.toNat ∧ unpkRule i w unpack s = flagUnsupportedWidth s) ∨
      (4 ≤ w.toNat ∧ w.toNat ≤ 16 ∧ unpkRule i w unpack s = unpack w.toNat s) := by
  unfold unpkRule
  by_cases h1 : w.toNat < 4
  · exact .inl ⟨h1, if_pos h1⟩
  · by_cases h2 : 16 < w.toNat
    · exact .inr (.inl ⟨h2, by rw [if_neg h1, if_pos h2]⟩)
    · exact .inr (.inr ⟨by omega, by omega, by rw [if_neg h1, if_neg h2]⟩)

end Sys2Proof.Machine
end

