-- ==== Sys2Proof/Laws/Palette.lean ====
section
/-! SUPPORT. What a palette cell and the phases of a DEC13 can do (R122 to R125), and the range of the selected width. -/

namespace Sys2Proof.Machine

/-- The search for a width goes up by at most its fuel and stops at the first width that is enough. -/
theorem widthSearch_spec (m : Nat) : ∀ (fuel w : Nat),
    w ≤ widthSearch m fuel w ∧ widthSearch m fuel w ≤ w + fuel ∧
      (m < 2 ^ (w + fuel) → m < 2 ^ widthSearch m fuel w) ∧
      ∀ v, w ≤ v → v < widthSearch m fuel w → 2 ^ v ≤ m := by
  intro fuel
  induction fuel with
  | zero => intro w; exact ⟨le_refl w, le_refl w, id, fun v h1 h2 => absurd h2 (not_lt.2 h1)⟩
  | succ fuel ih =>
    intro w
    by_cases h : 2 ^ w < m + 1
    · have hrun : widthSearch m (fuel + 1) w = widthSearch m fuel (w + 1) := if_pos h
      obtain ⟨h1, h2, h3, h4⟩ := ih (w + 1)
      rw [hrun]
      refine ⟨by omega, by omega, fun hm => h3 (by rwa [show w + 1 + fuel = w + (fuel + 1) by omega]), ?_⟩
      intro v hv hlt
      rcases Nat.eq_or_lt_of_le hv with rfl | hv
      · exact Nat.lt_succ_iff.1 h
      · exact h4 v hv hlt
    · have hrun : widthSearch m (fuel + 1) w = w := if_neg h
      rw [hrun]
      exact ⟨le_refl w, by omega, fun _ => by omega, fun v h1 h2 => absurd h2 (not_lt.2 h1)⟩

/-- A cell of PACC faults PAL_OOB or is an increment (R122, R123). -/
theorem paccCell_cases (ysec : BitVec 8) (idlimit : BitVec 24) (maxpal : BitVec 16) (i : Nat) (s : State) :
    (maxpal.toNat < (memRead .idx i s).toNat ∧
        paccCell ysec idlimit maxpal i s =
          raise .palOob (BitVec.ofNat 15 i) (BitVec.ofNat 64 (memRead .idx i s).toNat) s) ∨
      ((memRead .idx i s).toNat ≤ maxpal.toNat ∧
        paccCell ysec idlimit maxpal i s = histInc (paccAddr ysec idlimit i (memRead .idx i s).toNat s) i s) := by
  unfold paccCell
  rcases Nat.lt_or_ge maxpal.toNat (memRead .idx i s).toNat with h | h
  · exact .inl ⟨h, if_pos h⟩
  · exact .inr ⟨h, if_neg (Nat.not_lt.2 h)⟩

/-- Running a command's rule gives a next state: the rule's in MODE = 0, the same state in MODE = 1. -/
theorem whenIdle_cases (s : State) (rule : State → State) :
    (s.mode = .idle ∧ whenIdle s rule = .next (rule s)) ∨ (s.mode = .fault ∧ whenIdle s rule = .next s) := by
  cases h : s.mode <;> simp [whenIdle, h]

end Sys2Proof.Machine
end

