-- ==== Sys2Proof/Laws/HostPort.lean ====
section
/-! SUPPORT. What the host port's operations can do: the issue of a word (R61), a host write and a host read (R44), a
byte-addressed access (R35), and a step. -/

namespace Sys2Proof.Machine

/-- An issued word is discarded, refused by decode with its fault, or executed. -/
theorem issue_cases (x : Word) (s : State) :
    (s.mode = .fault ∧ issue x s = .next s) ∨
      (∃ e, s.mode = .idle ∧ decode x = .error e ∧ issue x s = .next (raise (causeOf e) 0 x s)) ∨
      ∃ i, s.mode = .idle ∧ decode x = .ok i ∧ issue x s = exec i s := by
  cases hm : s.mode with
  | fault => exact .inl ⟨rfl, by simp [issue, hm]⟩
  | idle =>
    cases hd : decode x with
    | error e => exact .inr (.inl ⟨e, rfl, rfl, by simp [issue, hm, hd]⟩)
    | ok i => exact .inr (.inr ⟨i, rfl, rfl, by simp [issue, hm, hd]⟩)

/-- A host write stores one entry of a memory, inside it, or is refused. -/
theorem hostWrite_cases (m : MemId) (i : Nat) (v : Word) (s : State) :
    (i < s.sizeOf m ∧ v.toNat < 2 ^ m.width ∧ hostWrite m i v s = .next (memWrite m i (v.setWidth m.width) s)) ∨
      ∃ r, hostWrite m i v s = .refused r := by
  unfold hostWrite
  split
  · exact .inr ⟨_, rfl⟩
  · split
    · exact .inr ⟨_, rfl⟩
    · exact .inl ⟨by omega, by omega, rfl⟩

/-- A host read answers an entry, inside the memory, or is refused. -/
theorem hostRead_cases (m : MemId) (i : Nat) (s : State) :
    (i < s.sizeOf m ∧ hostRead m i s = .next { s with answer := some (.value ((memRead m i s).setWidth 64)) }) ∨
      hostRead m i s = .refused .hostIndexOutsideMemory := by
  unfold hostRead
  split
  · exact .inr rfl
  · exact .inl ⟨by omega, rfl⟩

/-- A byte-addressed access stores one entry, answers one, or is refused. -/
theorem busAccess_cases (a : BusAccess) (s : State) :
    (∃ m i v, i < s.sizeOf m ∧ busAccess a s = .next (memWrite m i v s)) ∨
      (∃ h, busAccess a s = .next { s with answer := some h }) ∨ ∃ r, busAccess a s = .refused r := by
  cases a with
  | write m byteAddr bytes =>
    simp only [busAccess]
    split
    · rcases hostWrite_cases m (byteAddr / m.bytes) (BitVec.ofNat 64 (ofLittleEndian bytes)) s with ⟨h, _, e⟩ | h
      · exact .inl ⟨m, _, _, h, e⟩
      · exact .inr (.inr h)
    · exact .inr (.inr ⟨_, rfl⟩)
  | read m byteAddr size =>
    simp only [busAccess]
    split
    · split
      · exact .inr (.inr ⟨_, rfl⟩)
      · exact .inr (.inl ⟨_, rfl⟩)
    · exact .inr (.inr ⟨_, rfl⟩)

/-- A step with nothing waiting changes nothing. -/
theorem step_empty (s : State) (h : s.pending = []) : step s = .next s := by simp [step, takeAction, h]

/-- A step takes the oldest action waiting. -/
theorem step_action (s : State) (a : HostAction) (rest : List HostAction) (h : s.pending = a :: rest) :
    step s = perform a { s with pending := rest } := by simp [step, takeAction, h]

end Sys2Proof.Machine
end

