-- ==== Sys2Proof/Laws/PerInstr.lean ====
section
/-! SUPPORT. One statement about every command as syntax, proved command by command: the fields it is encoded with are those
of its row of the opcode table. -/

namespace Sys2Proof.Laws.EncodesToItsRow

/-- The op and cm a command is encoded with are the top five bits of its row's match value, its reserved field is 0, and so
is the width field of every command that is no UNPK (R53, R54, R55). -/
def Statement (i : Instr) : Prop :=
  (fieldsFor i).op.toNat * 2 + (fieldsFor i).cm.toNat = (matchMask i).1.toNat / 2 ^ 59 ∧ (fieldsFor i).rsv = 0 ∧
    ((fieldsFor i).op ≠ 4 → (fieldsFor i).w = 0)

theorem dec0 : Statement .dec0 := ⟨by simp [fieldsFor, matchMask], rfl, fun _ => rfl⟩

theorem dec2 (ysec : BitVec 8) (idlimit : BitVec 24) : Statement (.dec2 ysec idlimit) := ⟨by simp [fieldsFor, matchMask], rfl, fun _ => rfl⟩

theorem dec13Wc (ysec : BitVec 8) (idlimit : BitVec 24) (maxpal : BitVec 16) : Statement (.dec13Wc ysec idlimit maxpal) :=
  ⟨by simp [fieldsFor, matchMask], rfl, fun _ => rfl⟩

theorem dec13Nc (ysec : BitVec 8) (idlimit : BitVec 24) (maxpal : BitVec 16) : Statement (.dec13Nc ysec idlimit maxpal) :=
  ⟨by simp [fieldsFor, matchMask], rfl, fun _ => rfl⟩

theorem unpkWc (w : BitVec 5) : Statement (.unpkWc w) := ⟨by simp [fieldsFor, matchMask], rfl, fun h => absurd rfl h⟩

theorem unpkNc (w : BitVec 5) : Statement (.unpkNc w) := ⟨by simp [fieldsFor, matchMask], rfl, fun h => absurd rfl h⟩

theorem wsel (maxpal : BitVec 16) : Statement (.wsel maxpal) := ⟨by simp [fieldsFor, matchMask], rfl, fun _ => rfl⟩

theorem pacc (ysec : BitVec 8) (idlimit : BitVec 24) (maxpal : BitVec 16) : Statement (.pacc ysec idlimit maxpal) :=
  ⟨by simp [fieldsFor, matchMask], rfl, fun _ => rfl⟩

end Sys2Proof.Laws.EncodesToItsRow
end

