-- ==== Sys2Proof/Tests/Slice0.lean ====
section
/-! SUPPORT. Tests against the spec's own words, worked examples and vectors (each cites its source), and for every
statement with hypotheses a concrete state and operands that meet them (the `witness_` theorems). -/

namespace Sys2Proof.Tests

open Sys2Proof Sys2Proof.Machine

/-! ### Helpers -/

/-- The state of a next-state outcome; `d` for the others. -/
def after (d : State) : Result → State
  | .next t => t
  | .fault _ => d
  | .refused _ => d

/-- A block just out of reset with a bank of `n` counters. -/
def block (n : Nat) : State := { State.reset with histCells := n }

/-- A block with one host action waiting. -/
def offered (a : HostAction) : State := { block 48000 with pending := [a] }

/-- A block in MODE = 1 after PAL_OOB at cell 300 with local index 17 (V33), with one host action waiting. -/
def faulted (a : HostAction) : State := raise .palOob 300 17 (offered a)

/-- A memory whose entries `a` to `a` + `n` - 1 hold `v`. -/
def filled {width : Nat} (v : BitVec width) : (n a : Nat) → Memory width
  | 0, _ => []
  | n + 1, a => (a, v) :: filled v n (a + 1)

theorem get?_filled {width : Nat} (v : BitVec width) : ∀ (n a i : Nat), a ≤ i → i < a + n →
    (filled v n a).get? i = some v := by
  intro n
  induction n with
  | zero => intro a i h1 h2; omega
  | succ n ih =>
    intro a i h1 h2
    by_cases h : i = a
    · simp [filled, Memory.get?, h]
    · simpa [filled, Memory.get?, h] using ih (a + 1) i (by omega) (by omega)

/-! ### WellFormed: a legal and an ill-formed command for each check (R57) -/

theorem test_wellFormed_unpkWc_4 : (Instr.unpkWc 4).wellFormed = true := by decide
theorem test_wellFormed_unpkNc_31 : (Instr.unpkNc 31).wellFormed = true := by decide
theorem test_illFormed_unpkWc_3 : (Instr.unpkWc 3).wellFormed = false := by decide
theorem test_illFormed_unpkNc_0 : (Instr.unpkNc 0).wellFormed = false := by decide

/-! ### Decode and encode: every constructor's word, written out from R51 and R53 (words of R62 and V1) -/

theorem test_decode_dec0 : decode 0x1000000000000000 = .ok .dec0 := by decide
theorem test_decode_dec2 : decode 0x2000FF0000FFFFFF = .ok (.dec2 255 16777215) := by decide
theorem test_decode_dec13Wc : decode 0x30000200100003E8 = .ok (.dec13Wc 2 1000 16) := by decide
theorem test_decode_dec13Nc : decode 0x38000200100003E8 = .ok (.dec13Nc 2 1000 16) := by decide
theorem test_decode_unpkWc : decode 0x4140000000000000 = .ok (.unpkWc 5) := by decide
theorem test_decode_unpkNc : decode 0x4FC0000000000000 = .ok (.unpkNc 31) := by decide
theorem test_decode_wsel : decode 0x500000FFFF000000 = .ok (.wsel 65535) := by decide
theorem test_decode_pacc : decode 0x60000200100003E8 = .ok (.pacc 2 1000 16) := by decide

theorem test_encode_words :
    encode .dec0 = 0x1000000000000000 ∧ encode (.dec2 1 1048576) = 0x2000010000100000 ∧
      encode (.dec13Wc 2 1000 16) = 0x30000200100003E8 ∧ encode (.dec13Nc 2 1000 16) = 0x38000200100003E8 ∧
      encode (.unpkWc 5) = 0x4140000000000000 ∧ encode (.unpkNc 16) = 0x4C00000000000000 ∧
      encode (.wsel 16) = 0x5000000010000000 ∧ encode (.pacc 2 1000 16) = 0x60000200100003E8 := by decide

/-- Refused words of V2 with CAUSE 1. -/
theorem test_decode_illegalOpcode :
    decode 0x0000000000000000 = .error .illegalOpcode ∧ decode 0x7000000000000000 = .error .illegalOpcode ∧
      decode 0xFFFFFFFFFFFFFFFF = .error .illegalOpcode := by decide

/-- Refused words of V2 with CAUSE 2. -/
theorem test_decode_reservedField :
    decode 0x1000000000000001 = .error .reservedField ∧ decode 0x1001000000000000 = .error .reservedField ∧
      decode 0x2800000000000000 = .error .reservedField ∧ decode 0x3040000000000000 = .error .reservedField := by decide

/-- Refused words of V2 with CAUSE 2. -/
theorem test_decode_reservedField' :
    decode 0x4940010000000000 = .error .reservedField ∧ decode 0x5800000003000000 = .error .reservedField ∧
      decode 0x6800000000000000 = .error .reservedField := by decide

/-- The refused words of V2 with CAUSE 3. -/
theorem test_decode_widthBelowMin :
    decode 0x40C0000000000000 = .error .widthBelowMin ∧ decode 0x4000000000000000 = .error .widthBelowMin := by decide

/-- An assembler line of R59 and R62. -/
theorem test_assemble : assemble "DEC13.NC" [2, 1000, 16] = some (.dec13Nc 2 1000 16) := by decide

/-- An operand that does not fit its field is an assembly error (R59). -/
theorem test_assemble_tooWide : assemble "DEC2" [256, 0] = none := by decide

/-- There is no DEC13 without a suffix (R60). -/
theorem test_assemble_noPseudo : assemble "DEC13" [2, 1000, 16] = none := by decide

theorem test_decodeTableWord : decodeTableWord 64 0x30000200100003E8 = some (.dec13Wc 2 1000 16) := by decide

/-- The offered word is what the next step issues (R61). -/
theorem test_withFetchWord : (after .reset (step (State.reset.withFetchWord 64 0x5000000010000000))).wreg = 5 := by decide

/-! ### The commands -/

/-- V31: maxPaletteIdx 255 and 256. -/
theorem test_wsel_255_256 : (after .reset (exec (.wsel 255) .reset)).wreg = 8 ∧
    (after .reset (exec (.wsel 256) .reset)).wreg = 9 := by decide

/-- V31: the ends of the range. -/
theorem test_wsel_ends : (after .reset (exec (.wsel 0) .reset)).wreg = 4 ∧
    (after .reset (exec (.wsel 65535) .reset)).wreg = 16 := by decide

/-- The unpacker after the two words of V20. -/
def twoWords (takeWord : Word → Bsu → Bsu) : Bsu :=
  takeWord 0x0FEDCBA987654321 (takeWord 0x123456789ABCDEF0 (bsuStart []))

/-- V20: the entries that straddle the halves of PK[0] and the two words, and the last value of PK[1]. -/
theorem test_unpkWc_straddles : (twoWords (wcWord 5)).idx.get? 6 = some 0x02 ∧
    (twoWords (wcWord 5)).idx.get? 12 = some 0x11 ∧ (twoWords (wcWord 5)).idx.get? 24 = some 0x0f := by decide

/-- V29: width 17 leaves IDX, sets UW, clears OUTCNT. -/
theorem test_unpkWc_17 :
    let t := after .reset (exec (.unpkWc 17) { block 1 with idx := [(0, 0x1234)], outcnt := 4096 })
    t.uw = true ∧ t.outcnt = 0 ∧ t.idx = [(0, 0x1234)] ∧ t.mode = .idle := by decide

/-- V21: the top four bits of PK[0] are dropped; entry 23 ends at bit 59 of PK[1]. -/
theorem test_unpkNc_drops : (twoWords (ncWord 5)).idx.get? 11 = some 0x04 ∧
    (twoWords (ncWord 5)).idx.get? 12 = some 0x01 ∧ (twoWords (ncWord 5)).idx.get? 23 = some 0x1f ∧
    (twoWords (ncWord 5)).n = 24 := by decide

/-- V29: after an unpack with output OUTCNT is 4096 and UW stays. -/
theorem test_unpkNc_outcnt :
    let t := after .reset (exec (.unpkNc 5) { block 1 with uw := true, pk := [(0, 0x08245BA34DFC4543)] })
    t.outcnt = 4096 ∧ t.uw = true := by decide

/-- R81's worked example (V14): the pair of cells 394 and 395. -/
theorem test_dec0_pair :
    let s := { block 524288 with blk := [(394, 0xFF), (395, 0x80)], metadata := [(197, 0xF1)] }
    dec0Addr 394 s = 45041 ∧ dec0Addr 395 s = 47119 := by decide

/-- V15: a bank of one row: cell 0 is counted, cell 1 faults. -/
theorem test_dec0_fault :
    let t := after .reset (exec .dec0
      { block 4096 with blk := [(0, 0), (1, 0)], metadata := [(0, 0)], hist := [(0, 0)] })
    t.mode = .fault ∧ t.cause = .histOob ∧ t.finfo = 1 ∧ t.fval = 4096 ∧ t.hist = [(0, 1)] := by decide

/-- R90's worked example (P2): the two cells of slot 0. -/
def p2 (histCells : Nat) : State :=
  { block histCells with
    blk := [(0, 0xAB), (1, 0xCD)], add := [(0, 0x21)], add2 := [(0, 0x43)], metadata := [(0, 0x65)],
    hist := [(16980661, 0)] }

theorem test_dec2_pair : dec2Addr 1 1048576 0 (p2 1) = 16980661 ∧ dec2Addr 1 1048576 1 (p2 1) = 17050838 := by decide

/-- P2, variant (c): cell 0 is counted, cell 1 faults. -/
theorem test_dec2_fault :
    let t := after .reset (exec (.dec2 1 1048576) (p2 16980662))
    t.mode = .fault ∧ t.finfo = 1 ∧ t.fval = 0x0000000001042CD6 ∧ t.hist = [(16980661, 1)] := by decide

/-- V32: cell 300 with index 11 and identifier 111. -/
theorem test_pacc_cell : paccAddr 2 1000 300 11 { block 48000 with pal := [(11, 111)] } = 33111 := by decide

/-- R122: an index beyond the palette faults before the palette is read. -/
theorem test_pacc_fault :
    let t := after .reset (exec (.pacc 2 1000 16) { block 48000 with idx := [(0, 17)] })
    t.mode = .fault ∧ t.cause = .palOob ∧ t.finfo = 0 ∧ t.fval = 17 ∧ t.hist = [] := by decide

/-- The phases of a DEC13 on a palette of 4 entries: the second takes the width 4 that the first put into WREG, and the
third reads the index (here that width, 4) that the second left and faults PAL_OOB (V34, on a stand-in for the unpack). -/
theorem test_dec13_phases :
    let t := dec13Rule 0 10 3 (fun w s => { s with idx := [(0, BitVec.ofNat 16 w)] }) (block 100)
    t.wreg = 4 ∧ t.cause = .palOob ∧ t.finfo = 0 ∧ t.fval = 4 := by decide

/-! ### The bank, the registers, the host port and reset -/

/-- V10: a counter at 2^64 - 1 goes to 0. -/
theorem test_histInc_wraps : (histInc 16 0 { block 17 with hist := [(16, 0xFFFFFFFFFFFFFFFF)] }).hist = [(16, 0)] := by decide

/-- V11: the bound of the bank. -/
theorem test_histInc_bound : (histInc 48000 5 (block 48000)).fval = 48000 ∧
    (histInc 48000 5 (block 48000)).finfo = 5 ∧ (histInc 48000 5 (block 48000)).hist = [] := by decide

/-- P5: STATUS after PAL_OOB is 0x41; with UW it is 0x43. -/
theorem test_status : (after .reset (step (faulted (.readCsr 1)))).answer = some (.value 0x41) ∧
    statusWord { faulted .reset with uw := true } = 0x43 := by decide

/-- V36: in MODE = 1 a DEC0 is discarded and nothing but the queue changes. -/
theorem test_fault_discards : after .reset (step (faulted (.writeCsr 0 0x1000000000000000))) =
    { faulted (.writeCsr 0 0x1000000000000000) with pending := [] } := by decide

/-- V36: reset clears the registers; HIST keeps its counts. -/
theorem test_reset : after .reset (step { faulted .reset with hist := [(33100, 44)] }) =
    { block 48000 with hist := [(33100, 44)] } := by decide

/-- R32: the byte of weight 1 stands first. -/
theorem test_bus_write : (after .reset (step (offered (.bus (.write .pal 9 [1, 2, 3]))))).pal = [(3, 0x030201)] := by decide

/-- A FILL is one host write an entry (R59). -/
theorem test_fill : fillActions .blk 7 2 5 = [.write .blk 5 7, .write .blk 6 7] := by decide

/-! ### Witnesses: for each statement with hypotheses, a state and operands that meet them -/

theorem witness_DecodeOfEncode : (Instr.unpkWc 4).wellFormed = true ∧ (Instr.pacc 255 16777215 65535).wellFormed = true := by
  decide

theorem witness_EncodeOfDecode : decode 0x3800FFFFFFFFFFFF = .ok (.dec13Nc 255 16777215 65535) := by decide

theorem witness_DecodeMeetsMatchAndMask :
    decode 0x4100000000000000 = .ok (.unpkWc 4) ∧
      0x40C0000000000000 &&& (matchMask (.unpkWc 0)).2 = (matchMask (.unpkWc 0)).1 ∧
      0x4800000000000000 &&& (matchMask (.unpkNc 0)).2 = (matchMask (.unpkNc 0)).1 := by decide

theorem witness_StepRunsTheDecodedCommand :
    let s := offered (.writeCsr 0 0x5000000010000000)
    s.pending = .writeCsr 0 0x5000000010000000 :: [] ∧ s.mode = .idle ∧ decode 0x5000000010000000 = .ok (.wsel 16) := by decide

theorem witness_RejectedWordTakesFault :
    let s := offered (.writeCsr 0 0)
    s.pending = .writeCsr 0 0 :: [] ∧ s.mode = .idle ∧ decode 0 = .error .illegalOpcode := by decide

theorem witness_FaultModeDiscardsCommandsOnly :
    (faulted (.writeCsr 0 0)).mode = .fault ∧ (faulted (.writeCsr 0 0)).pending = .writeCsr 0 0 :: [] ∧
      (faulted (.write .pal 65535 0xFFFFFF)).mode = .fault ∧
      (faulted (.write .pal 65535 0xFFFFFF)).pending = .write .pal 65535 0xFFFFFF :: [] ∧
      65535 < (faulted (.write .pal 65535 0xFFFFFF)).sizeOf .pal ∧ (0xFFFFFF : Word).toNat < 2 ^ MemId.pal.width ∧
      (faulted (.read .hist 47999)).pending = .read .hist 47999 :: [] ∧
      47999 < (faulted (.read .hist 47999)).sizeOf .hist ∧
      (faulted (.readCsr 6)).pending = .readCsr 6 :: [] := by decide

theorem witness_ResetClearsTheRegistersOnly : (faulted .reset).pending = .reset :: [] := by decide

theorem witness_HostWriteStoresOneEntry :
    let s := offered (.write .idx 4095 65535)
    s.pending = .write .idx 4095 65535 :: [] ∧ 4095 < s.sizeOf .idx ∧ (65535 : Word).toNat < 2 ^ MemId.idx.width := by decide

theorem witness_HostReadReturnsTheEntry :
    let s := offered (.read .pk 1023)
    s.pending = .read .pk 1023 :: [] ∧ 1023 < s.sizeOf .pk := by decide

theorem witness_RegisterNumbers :
    (offered (.readCsr 5)).pending = .readCsr 5 :: [] ∧ (offered (.writeCsr 0 7)).pending = .writeCsr 0 7 :: [] ∧
      (offered (.writeCsr 1 7)).pending = .writeCsr 1 7 :: [] ∧ 6 ≤ 6 := by
  decide

theorem witness_HostAccessOutsideIsRefused :
    (offered (.write .idx 4096 0)).pending = .write .idx 4096 0 :: [] ∧ (offered .reset).sizeOf .idx ≤ 4096 ∧
      (offered (.write .idx 4095 65536)).pending = .write .idx 4095 65536 :: [] ∧ 4095 < (offered .reset).sizeOf .idx ∧
      2 ^ MemId.idx.width ≤ (65536 : Word).toNat ∧
      (offered (.read .hist 48000)).pending = .read .hist 48000 :: [] ∧ (offered .reset).sizeOf .hist ≤ 48000 := by decide

theorem witness_BusAccessIsOneWholeEntry :
    (9 = 3 * MemId.pal.bytes ∧ 3 < (offered .reset).sizeOf .pal ∧
      (offered (.bus (.write .pal 9 [1, 2, 3]))).pending =
        .bus (.write .pal 9 (littleEndian MemId.pal.bytes (0x030201 : BitVec 24).toNat)) :: []) ∧
      (offered (.bus (.read .pal 9 3))).pending = .bus (.read .pal 9 MemId.pal.bytes) :: [] ∧
      ([1, 2] : List Byte).length ≠ MemId.pal.bytes ∧ ¬ MemId.pal.bytes ∣ 10 := by decide

theorem witness_NothingExecutesInFault : (faulted .reset).mode = .fault := by decide

theorem witness_HistogramIncrement : (block 48000).histCells ≤ 48000 ∧ 47999 < (block 48000).histCells := by decide

theorem witness_AddressFitsThirtySixBits : 4095 ≤ 4095 ∧ 2 ^ 24 - 1 < 2 ^ 24 := by decide

/-- A PACC that meets all hypotheses of conservation, with 4096 cells all counted at counter 0. -/
def zeroSection : State :=
  { block 1 with idx := filled 0 4096 0, pal := [(0, 0)], hist := [(0, 5)] }

theorem zeroSection_index (h : Memory 64) (i : Nat) (hi : i < 4096) :
    (memRead .idx i { zeroSection with hist := h }).toNat = 0 := by
  have e : (filled (0 : BitVec 16) 4096 0).get? i = some 0 := get?_filled 0 4096 0 i (by omega) (by omega)
  unfold memRead
  rw [show ({ zeroSection with hist := h } : State).cells .idx = filled 0 4096 0 from rfl, e]
  rfl

/-- Cells whose indices stay in the palette and whose addresses stay in the bank leave the block without a fault. -/
theorem palAcc_idle (s : State) (maxpal : BitVec 16) (hs : s.mode = .idle)
    (hi : ∀ c < Config.cells, ∀ h : Memory 64, (memRead .idx c { s with hist := h }).toNat = 0)
    (hp : ∀ h : Memory 64, (memRead .pal 0 { s with hist := h }).toNat = 0) (hc : 0 < s.histCells) :
    (palAcc 0 0 maxpal s).mode = .idle := by
  have run := forCells_all_counted (paccCell 0 0 maxpal) (fun _ => 0) Config.cells s hs
    (fun c h1 h => by
      rcases paccCell_cases 0 0 maxpal c { s with hist := h } with ⟨hbad, _⟩ | ⟨_, e⟩
      · rw [hi c h1 h] at hbad; exact absurd hbad (Nat.not_lt_zero _)
      · rw [e, hi c h1 h]; simp [paccAddr, histAddr, hp h])
    (fun _ _ => hc)
  exact run.1

theorem exec_pacc_idle (y : BitVec 8) (l : BitVec 24) (m : BitVec 16) (s : State) (hs : s.mode = .idle) :
    exec (.pacc y l m) s = .next (palAcc y l m s) := by
  show whenIdle s (palAcc y l m) = _
  simp [whenIdle, hs]

theorem zeroSection_pacc_idle : (palAcc 0 0 0 zeroSection).mode = .idle :=
  palAcc_idle zeroSection 0 rfl (fun c hc h => zeroSection_index h c hc)
    (fun h => by simp [memRead, zeroSection, State.cells, Memory.get?]) Nat.one_pos

theorem witness_HistogramConservation :
    zeroSection.mode = .idle ∧ (∃ t, exec (.pacc 0 0 0) zeroSection = .next t ∧ t.mode = .idle) ∧
      (∃ t, exec (.unpkWc 3) zeroSection = .next t ∧ t.mode = .fault) ∧
      ∀ a < zeroSection.histCells, (memRead .hist a zeroSection).toNat + cellsCounted (.pacc 0 0 0) < 2 ^ 64 := by
  refine ⟨rfl, ⟨_, exec_pacc_idle 0 0 0 zeroSection rfl, zeroSection_pacc_idle⟩, ⟨_, rfl, rfl⟩, fun a ha => ?_⟩
  have h0 : a = 0 := Nat.lt_one_iff.1 ha
  subst h0; decide

theorem witness_Dec0CountsEveryCell : (block 524288).mode = .idle ∧ 524288 ≤ (block 524288).histCells := by decide

theorem nibbleValue_lt (c : Nat) (b : Byte) : nibbleValue c b < 16 := by
  have := b.isLt
  unfold nibbleValue
  split <;> omega

/-- Cell 127, the last of the first column, is the first that a bank of 524287 counters is too small for. -/
def shortBank : State := { block 524287 with blk := [(127, 0xFF)], metadata := [(63, 0xF0)] }

theorem witness_Dec0FaultsAtFirstCellOutside :
    shortBank.mode = .idle ∧ 127 < 32768 ∧ (∀ c < 127, flatAddress shortBank c < shortBank.histCells) ∧
      shortBank.histCells ≤ flatAddress shortBank 127 := by
  refine ⟨rfl, by decide, fun c hc => ?_, by decide⟩
  have h1 : (memRead .blk c shortBank).toNat < 256 := (memRead .blk c shortBank).isLt
  have h2 := nibbleValue_lt c (memRead .metadata (c / 2) shortBank)
  show _ < 524287
  unfold flatAddress
  omega

/-- For Dec2IsTheSlotLoop and Dec13IsItsThreePhases as well. -/
theorem witness_Dec0IsTheColumnLoop : (block 1).mode = .idle := by decide

theorem witness_NibblePairProperty :
    let s := { block 1 with blk := [(32766, 0xFF), (32767, 0x80)], metadata := [(16383, 0xF1)] }
    255 < 256 ∧ 126 < 128 ∧ 126 % 2 = 0 ∧ 1 < 16 ∧ 15 < 16 ∧ (memRead .blk (126 + 255 * 128) s).toNat = 255 ∧
      (memRead .blk (126 + 255 * 128 + 1) s).toNat = 128 ∧
      (memRead .metadata ((126 + 255 * 128) / 2) s).toNat = 15 * 16 + 1 := by decide

theorem witness_Dec2CountsEveryCell :
    (block 1048576).mode = .idle ∧ ∀ c < 4096, extendedAddress (block 1048576) 255 0 c < (block 1048576).histCells := by
  refine ⟨rfl, fun c _ => ?_⟩
  have h1 : (memRead .blk c (block 1048576)).toNat < 256 := (memRead .blk c (block 1048576)).isLt
  have h2 := nibbleValue_lt c (memRead .metadata (c / 2) (block 1048576))
  have h3 := nibbleValue_lt c (memRead .add (c / 2) (block 1048576))
  have h4 := nibbleValue_lt c (memRead .add2 (c / 2) (block 1048576))
  have h5 : (0 : BitVec 24).toNat = 0 := rfl
  show _ < 1048576
  unfold extendedAddress
  rw [h5]
  omega

theorem witness_Dec2FaultsAtFirstCellOutside :
    (p2 16980662).mode = .idle ∧ 1 < 4096 ∧
      (∀ c < 1, extendedAddress (p2 16980662) 1 1048576 c < (p2 16980662).histCells) ∧
      (p2 16980662).histCells ≤ extendedAddress (p2 16980662) 1 1048576 1 := by decide

/-- For UnpkWcClosedForm and UnpkNcClosedForm: both ends of the range of w. -/
theorem witness_UnpkClosedForm : (block 1).mode = .idle ∧ 4 ≤ (16 : BitVec 5).toNat ∧ (16 : BitVec 5).toNat ≤ 16 ∧
    4 ≤ (4 : BitVec 5).toNat := by decide

theorem witness_UnpkAboveSixteenOnlyFlags : (block 1).mode = .idle ∧ 16 < (17 : BitVec 5).toNat := by decide

theorem witness_UnpkBelowFourTakesFault : (block 1).mode = .idle ∧ (3 : BitVec 5).toNat < 4 := by decide

theorem witness_UnpackWordsRead : 4 ≤ 4 ∧ 16 ≤ 16 := by decide

/-- Two blocks that differ only in the last word of PK. -/
def lastWord (v : Word) : State := { block 1 with pk := [(1023, v)] }

theorem witness_UnpackIgnoresOtherBits :
    (lastWord 1).mode = .idle ∧ (lastWord 2).mode = .idle ∧ 4 ≤ (4 : BitVec 5).toNat ∧ (4 : BitVec 5).toNat ≤ 16 ∧
      (∃ t t', exec (.unpkWc 4) (lastWord 1) = .next t ∧ exec (.unpkWc 4) (lastWord 2) = .next t') ∧
      (∀ k < 64 * (4 : BitVec 5).toNat, memRead .pk k (lastWord 2) = memRead .pk k (lastWord 1)) ∧
      (∃ t t', exec (.unpkNc 4) (lastWord 1) = .next t ∧ exec (.unpkNc 4) (lastWord 2) = .next t') ∧
      ∀ k < (4096 + 64 / (4 : BitVec 5).toNat - 1) / (64 / (4 : BitVec 5).toNat),
        ∀ b < 64 / (4 : BitVec 5).toNat * (4 : BitVec 5).toNat,
          (memRead .pk k (lastWord 2)).getLsbD b = (memRead .pk k (lastWord 1)).getLsbD b := by
  have same : ∀ k < 1023, memRead .pk k (lastWord 2) = memRead .pk k (lastWord 1) := by
    intro k hk
    simp [memRead, lastWord, State.cells, Memory.get?, Nat.ne_of_lt hk, block]
  have hw : (4 : BitVec 5).toNat = 4 := rfl
  rw [hw]
  refine ⟨rfl, rfl, by decide, by decide, ⟨_, _, rfl, rfl⟩, fun k hk => same k (by omega), ⟨_, _, rfl, rfl⟩,
    fun k hk b _ => by rw [same k (by omega)]⟩

theorem witness_ConventionsAgree :
    (block 1).mode = .idle ∧ 4 ≤ (16 : BitVec 5).toNat ∧ (16 : BitVec 5).toNat ≤ 16 ∧
      (∃ t t', exec (.unpkWc 16) (block 1) = .next t ∧ exec (.unpkNc 16) (block 1) = .next t') :=
  ⟨rfl, by decide, by decide, _, _, rfl, rfl⟩

/-- The values 1, 0, 0, ... -/
def oneThenZeros (n : Nat) : Nat := if n = 0 then 1 else 0

/-- PK packed with them, by either packer: word 0 is 1, every other word 0. -/
def packedOne : State := { block 1 with pk := (0, 1) :: filled 0 1023 1 }

theorem packedOne_word (k : Nat) (hk : k < 1024) : (memRead .pk k packedOne).toNat = oneThenZeros k := by
  by_cases h : k = 0
  · subst h; decide
  · have e : packedOne.pk.get? k = some 0 := by
      simpa [packedOne, Memory.get?, h] using get?_filled (0 : BitVec 64) 1023 1 k (by omega) (by omega)
    unfold memRead
    rw [show packedOne.cells .pk = packedOne.pk from rfl, e]
    simp [oneThenZeros, h]

theorem packedNumber_one (w n : Nat) : packedNumber oneThenZeros w (n + 1) = 1 := by
  induction n with
  | zero => simp [packedNumber, oneThenZeros]
  | succ n ih => rw [packedNumber, ih]; simp [oneThenZeros]

theorem ncWordNumber_one (w k n : Nat) (hw : 0 < 64 / w) :
    ncWordNumber oneThenZeros w k (n + 1) = oneThenZeros k := by
  induction n with
  | zero =>
    by_cases h : k = 0
    · simp [ncWordNumber, oneThenZeros, h]
    · simp [ncWordNumber, oneThenZeros, h, Nat.ne_of_gt hw]
  | succ n ih => rw [ncWordNumber, ih]; simp [oneThenZeros]

theorem oneThenZeros_lt (w n : Nat) (hw : 0 < w) : oneThenZeros n < 2 ^ w := by
  have : 2 ≤ 2 ^ w := Nat.le_self_pow (by omega) 2
  unfold oneThenZeros
  split <;> omega

theorem witness_UnpackReturnsWhatPackWcPacked :
    packedOne.mode = .idle ∧ 4 ≤ (5 : BitVec 5).toNat ∧ (5 : BitVec 5).toNat ≤ 16 ∧
      (∀ n < 4096, oneThenZeros n < 2 ^ (5 : BitVec 5).toNat) ∧ PackedWc packedOne (5 : BitVec 5).toNat oneThenZeros := by
  refine ⟨rfl, by decide, by decide, fun n _ => oneThenZeros_lt _ n (by decide), fun k hk => ?_⟩
  have hk' : k < 320 := hk
  rw [packedOne_word k (by omega), packedNumber_one _ 4095]
  by_cases h : k = 0
  · subst h; decide
  · have : 1 < 2 ^ (64 * k) := Nat.one_lt_two_pow (by omega)
    simp [oneThenZeros, h, Nat.div_eq_of_lt this]

theorem witness_UnpackReturnsWhatPackNcPacked :
    packedOne.mode = .idle ∧ 4 ≤ (5 : BitVec 5).toNat ∧ (5 : BitVec 5).toNat ≤ 16 ∧
      (∀ n < 4096, oneThenZeros n < 2 ^ (5 : BitVec 5).toNat) ∧ PackedNc packedOne (5 : BitVec 5).toNat oneThenZeros := by
  refine ⟨rfl, by decide, by decide, fun n _ => oneThenZeros_lt _ n (by decide), fun k hk => ?_⟩
  have hk' : k < 342 := hk
  rw [packedOne_word k (by omega)]
  show oneThenZeros k % 2 ^ 60 = ncWordNumber oneThenZeros 5 k (11 + 1)
  rw [ncWordNumber_one 5 k 11 (by decide)]
  exact Nat.mod_eq_of_lt (oneThenZeros_lt 60 k (by decide))

theorem witness_AccumulatorLosesNoBit :
    let b : Bsu := { acc := 0x7FFF, nbits := 15, n := 4095, k := 1, idx := [] }
    4 ≤ 16 ∧ 16 ≤ 16 ∧ b.nbits < 16 ∧ b.acc.toNat < 2 ^ b.nbits ∧ b.n < 4096 := by decide

theorem witness_WselSelectsTheSmallestWidth : (block 1).mode = .idle := by decide

/-- With every palette entry and index free, a bank of 2^24 counters and row length 0 hold every cell of a PACC. -/
theorem witness_PaccCountsEveryCell :
    (block 16777216).mode = .idle ∧ ∀ i < 4096, storedIndex (block 16777216) i ≤ (65535 : BitVec 16).toNat ∧
      paletteAddress (block 16777216) 255 0 (storedIndex (block 16777216)) i < (block 16777216).histCells := by
  refine ⟨rfl, fun i _ => ⟨?_, ?_⟩⟩
  · have h : storedIndex (block 16777216) i < 65536 := (memRead .idx i (block 16777216)).isLt
    show _ ≤ 65535
    omega
  · have h : (memRead .pal (storedIndex (block 16777216) i) (block 16777216)).toNat < 16777216 :=
      (memRead .pal (storedIndex (block 16777216) i) (block 16777216)).isLt
    simpa [paletteAddress, block] using h

/-- Cell 4095 alone has an index beyond the palette. -/
def lateBadIndex : State := { block 1 with idx := filled 0 4095 0 ++ [(4095, 1)], pal := [(0, 0)] }

theorem get?_append_single {width : Nat} (v u : BitVec width) : ∀ (n a i : Nat), a ≤ i → i ≤ a + n →
    (filled v n a ++ [(a + n, u)] : Memory width).get? i = some (if i < a + n then v else u) := by
  intro n
  induction n with
  | zero =>
    intro a i h1 h2
    have : i = a := by omega
    subst this; simp [filled, Memory.get?]
  | succ n ih =>
    intro a i h1 h2
    by_cases h : i = a
    · subst h; simp [filled, Memory.get?]
    · have := ih (a + 1) i (by omega) (by omega)
      rw [show a + 1 + n = a + (n + 1) by omega] at this
      simpa [filled, Memory.get?, h] using this

theorem lateBadIndex_index (i : Nat) (hi : i ≤ 4095) : storedIndex lateBadIndex i = if i < 4095 then 0 else 1 := by
  have e : (filled (0 : BitVec 16) 4095 0 ++ [(0 + 4095, 1)] : Memory 16).get? i = _ :=
    get?_append_single 0 1 4095 0 i (by omega) (by omega)
  unfold storedIndex memRead
  rw [show lateBadIndex.cells .idx = filled (0 : BitVec 16) 4095 0 ++ [(0 + 4095, 1)] from rfl, e]
  simp only [Nat.zero_add]
  split <;> rfl

theorem witness_PaccFaultsAtFirstBadCell_palOob :
    lateBadIndex.mode = .idle ∧ 4095 < 4096 ∧
      (∀ i < 4095, storedIndex lateBadIndex i ≤ (0 : BitVec 16).toNat ∧
        paletteAddress lateBadIndex 0 0 (storedIndex lateBadIndex) i < lateBadIndex.histCells) ∧
      (0 : BitVec 16).toNat < storedIndex lateBadIndex 4095 := by
  refine ⟨rfl, by decide, fun i hi => ?_, by rw [lateBadIndex_index _ (by omega)]; decide⟩
  have h : storedIndex lateBadIndex i = 0 := by rw [lateBadIndex_index i (by omega), if_pos hi]
  unfold paletteAddress
  rw [h]
  exact ⟨by decide, by simp [memRead, lateBadIndex, State.cells, Memory.get?, block]⟩

theorem witness_PaccFaultsAtFirstBadCell_histOob :
    let s := { block 5 with idx := [(0, 3)], pal := [(3, 5)] }
    s.mode = .idle ∧ 0 < 4096 ∧ storedIndex s 0 ≤ (3 : BitVec 16).toNat ∧
      s.histCells ≤ paletteAddress s 0 0 (storedIndex s) 0 := by decide

theorem widthSel_max : widthSel 65535 = 16 := by decide

/-- The same bank holds every cell of a DEC13 with 16-bit indices, whatever PK and PAL hold. -/
theorem good_dec13 (index : Nat → Nat) (h : ∀ i, index i < 65536) (i : Nat) :
    index i ≤ (65535 : BitVec 16).toNat ∧
      paletteAddress (block 16777216) 255 0 index i < (block 16777216).histCells := by
  refine ⟨by have := h i; show _ ≤ 65535; omega, ?_⟩
  have : (memRead .pal (index i) (block 16777216)).toNat < 16777216 := (memRead .pal (index i) (block 16777216)).isLt
  simpa [paletteAddress, block] using this

theorem witness_Dec13WcDecodesAndCounts :
    (block 16777216).mode = .idle ∧ ∀ i < 4096,
      wcValue (block 16777216) (widthSel 65535) i ≤ (65535 : BitVec 16).toNat ∧
        paletteAddress (block 16777216) 255 0 (wcValue (block 16777216) (widthSel 65535)) i
          < (block 16777216).histCells :=
  ⟨rfl, fun i _ => good_dec13 _ (fun j => by rw [widthSel_max]; exact Nat.mod_lt _ (by decide)) i⟩

theorem witness_Dec13NcDecodesAndCounts :
    (block 16777216).mode = .idle ∧ ∀ i < 4096,
      ncValue (block 16777216) (widthSel 65535) i ≤ (65535 : BitVec 16).toNat ∧
        paletteAddress (block 16777216) 255 0 (ncValue (block 16777216) (widthSel 65535)) i
          < (block 16777216).histCells :=
  ⟨rfl, fun i _ => good_dec13 _ (fun j => by rw [widthSel_max]; exact Nat.mod_lt _ (by decide)) i⟩

/-- Word 0 of PK gives the index 7 first; in a palette of one entry that is PAL_OOB, in one of eight it is counted at
address 5, outside a bank of 5. -/
def firstIndexSeven : State := { block 5 with pk := (0, 7) :: filled 0 1023 1, pal := [(7, 5)] }

theorem firstIndexSeven_nc : ncValue firstIndexSeven 4 0 = 7 := by decide

theorem streamNumber_mod (s : State) (n : Nat) :
    streamNumber s (n + 1) % 2 ^ 64 = (memRead .pk 0 s).toNat := by
  induction n with
  | zero =>
    simp only [streamNumber, Nat.mul_zero, pow_zero, Nat.mul_one, Nat.zero_add]
    exact Nat.mod_eq_of_lt (memRead .pk 0 s).isLt
  | succ n ih =>
    rw [streamNumber, show 64 * (n + 1) = 64 * n + 64 by ring, pow_add, ← Nat.mul_assoc, Nat.add_mul_mod_self_right, ih]

/-- The first value with carry is the low bits of the first word. -/
theorem wcValue_first (s : State) : wcValue s 4 0 = (memRead .pk 0 s).toNat % 2 ^ 4 := by
  rw [← streamNumber_mod s 1023, Nat.mod_mod_of_dvd _ (show 2 ^ 4 ∣ 2 ^ 64 by decide)]
  unfold wcValue
  rw [Nat.zero_mul, pow_zero, Nat.div_one]

theorem firstIndexSeven_wc : wcValue firstIndexSeven 4 0 = 7 := by
  have h0 : (memRead .pk 0 firstIndexSeven).toNat = 7 := by decide
  rw [wcValue_first, h0]; decide

theorem widthSel_small : widthSel 0 = 4 ∧ widthSel 7 = 4 := by decide

theorem firstIndexSeven_address (index : Nat → Nat) (h : index 0 = 7) :
    firstIndexSeven.histCells ≤ paletteAddress firstIndexSeven 0 0 index 0 := by
  unfold paletteAddress
  rw [h]
  decide

theorem witness_Dec13WcFaultsAtFirstBadCell :
    firstIndexSeven.mode = .idle ∧ 0 < 4096 ∧
      (0 : BitVec 16).toNat < wcValue firstIndexSeven (widthSel 0) 0 ∧
      wcValue firstIndexSeven (widthSel 7) 0 ≤ (7 : BitVec 16).toNat ∧
      firstIndexSeven.histCells ≤ paletteAddress firstIndexSeven 0 0 (wcValue firstIndexSeven (widthSel 7)) 0 := by
  rw [widthSel_small.1, widthSel_small.2]
  exact ⟨rfl, by decide, by rw [firstIndexSeven_wc]; decide, by rw [firstIndexSeven_wc]; decide,
    firstIndexSeven_address _ firstIndexSeven_wc⟩

theorem witness_Dec13NcFaultsAtFirstBadCell :
    firstIndexSeven.mode = .idle ∧ 0 < 4096 ∧
      (0 : BitVec 16).toNat < ncValue firstIndexSeven (widthSel 0) 0 ∧
      ncValue firstIndexSeven (widthSel 7) 0 ≤ (7 : BitVec 16).toNat ∧
      firstIndexSeven.histCells ≤ paletteAddress firstIndexSeven 0 0 (ncValue firstIndexSeven (widthSel 7)) 0 := by
  rw [widthSel_small.1, widthSel_small.2]
  exact ⟨rfl, by decide, by rw [firstIndexSeven_nc]; decide, by rw [firstIndexSeven_nc]; decide,
    firstIndexSeven_address _ firstIndexSeven_nc⟩

/-- Every command answers a next state, so the hypothesis of CommandsWriteNoInputMemory and the first one of the frames are
met by every state. -/
theorem witness_frames (s : State) :
    (∃ t, exec .dec0 s = .next t) ∧ (∃ t, exec (.dec2 1 2) s = .next t) ∧ (∃ t, exec (.pacc 1 2 3) s = .next t) ∧
      (∃ t, exec (.unpkWc 5) s = .next t) ∧ (∃ t, exec (.unpkNc 5) s = .next t) ∧
      (∃ t, exec (.dec13Wc 1 2 3) s = .next t) ∧ (∃ t, exec (.dec13Nc 1 2 3) s = .next t) ∧
      ∃ t, exec (.wsel 3) s = .next t :=
  ⟨⟨_, rfl⟩, ⟨_, rfl⟩, ⟨_, rfl⟩, ⟨_, rfl⟩, ⟨_, rfl⟩, ⟨_, rfl⟩, ⟨_, rfl⟩, ⟨_, rfl⟩⟩

/-- Addresses no cell is counted at, just above the greatest that the command can form with row length 0 (DEC0: 4096). -/
theorem witness_CountingCommandsFrame (s : State) :
    (∀ c < 32768, dec0Addr c s ≠ 524288) ∧ (∀ c < 4096, dec2Addr 255 0 c s ≠ 1048576) ∧
      ∀ c < 4096, paccAddr 255 0 c (memRead .idx c s).toNat s ≠ 16777216 := by
  refine ⟨fun c _ => ?_, fun c _ => ?_, fun c _ => ?_⟩
  · have h := (flatId (memRead .blk c s) (cellNibble c (memRead .metadata (c / 2) s))).isLt
    show c % 128 * 4096 + (flatId _ _).toNat ≠ _
    omega
  · have h := (extendedId (cellNibble c (memRead .add2 (c / 2) s)) (cellNibble c (memRead .add (c / 2) s))
      (memRead .blk c s) (cellNibble c (memRead .metadata (c / 2) s))).isLt
    show sectionLayer 255 _ * 0 + (extendedId _ _ _ _).toNat ≠ _
    omega
  · have h : (memRead .pal (memRead .idx c s).toNat s).toNat < 16777216 :=
      (memRead .pal (memRead .idx c s).toNat s).isLt
    show sectionLayer 255 _ * 0 + BitVec.toNat _ ≠ _
    omega

/-- The widths and entries at which the clauses of UnpkFrame meet; every state meets its first hypothesis. -/
theorem witness_UnpkFrame (s : State) : (∃ t, exec (.unpkWc 3) s = .next t) ∧ (∃ t, exec (.unpkNc 17) s = .next t) ∧
    (3 : BitVec 5).toNat < 4 ∧ 4 ≤ (4 : BitVec 5).toNat ∧ (16 : BitVec 5).toNat ≤ 16 ∧ 16 < (17 : BitVec 5).toNat ∧
    4096 ≤ 4096 := ⟨⟨_, rfl⟩, ⟨_, rfl⟩, by decide, by decide, by decide, by decide, le_refl _⟩

/-- A DEC13 with row length 0 and a counter none of its cells can be counted at. -/
theorem witness_Dec13Frame (s : State) : (∃ t, exec (.dec13Wc 255 0 16) s = .next t ∧
      ∀ c < 4096, paccAddr 255 0 c (memRead .idx c t).toNat t ≠ 16777216) ∧
    ∃ t, exec (.dec13Nc 255 0 16) s = .next t ∧
      ∀ c < 4096, paccAddr 255 0 c (memRead .idx c t).toNat t ≠ 16777216 :=
  ⟨⟨_, rfl, (witness_CountingCommandsFrame _).2.2⟩, ⟨_, rfl, (witness_CountingCommandsFrame _).2.2⟩⟩

theorem witness_FaultLastsUntilReset :
    (faulted (.writeCsr 0 0)).mode = .fault ∧ (∃ t, step (faulted (.writeCsr 0 0)) = .next t) ∧
      (∀ rest, (faulted (.writeCsr 0 0)).pending ≠ .reset :: rest) ∧
      (∃ t, step (faulted .reset) = .next t) ∧ (faulted .reset).pending = .reset :: [] :=
  ⟨rfl, ⟨_, rfl⟩, fun rest h => by simp [faulted, offered] at h, ⟨_, rfl⟩, rfl⟩

theorem witness_UnsupportedWidthFlagIsSticky :
    (∃ t, step { offered (.readCsr 1) with uw := true } = .next t) ∧
      (∀ rest, (offered (.readCsr 1)).pending ≠ .reset :: rest) ∧
      (offered (.writeCsr 0 0x4440000000000000)).uw = false ∧
      ∃ t, step (offered (.writeCsr 0 0x4440000000000000)) = .next t ∧ t.uw = true :=
  ⟨⟨_, rfl⟩, fun rest h => by simp [offered] at h, rfl, _, rfl, by decide⟩

theorem witness_StepKeepsTheInvariant :
    Inv (offered (.write .blk 32767 255)) ∧ ∃ t, step (offered (.write .blk 32767 255)) = .next t :=
  ⟨{  memories := fun m => by cases m <;> exact ⟨List.Pairwise.nil, fun e he => nomatch he⟩
      faultRecord :=
        { cause_iff := by decide, idle_clear := fun _ => by decide, decode_finfo := by decide,
          pal_fval := by decide, hist_fval := fun h => nomatch h }
      wreg_range := .inl rfl
      outcnt_values := .inl rfl
      bank_nonempty := by decide },
    _, rfl⟩

end Sys2Proof.Tests
end

section
/-! SUPPORT. Every command is a rule run in MODE = 0, and nothing in MODE = 1 (R144). -/

namespace Sys2Proof.Machine

/-- What a command does in MODE = 0. -/
def commandRule : Instr → State → State
  | .dec0 => forCells dec0Cell Config.cellsV0 0
  | .dec2 ysec idlimit => forCells (dec2Cell ysec idlimit) Config.cells 0
  | .dec13Wc ysec idlimit maxpal => dec13Rule ysec idlimit maxpal unpackWc
  | .dec13Nc ysec idlimit maxpal => dec13Rule ysec idlimit maxpal unpackNc
  | .unpkWc w => unpkRule (.unpkWc w) w unpackWc
  | .unpkNc w => unpkRule (.unpkNc w) w unpackNc
  | .wsel maxpal => setWreg (widthSel maxpal)
  | .pacc ysec idlimit maxpal => palAcc ysec idlimit maxpal

theorem exec_eq_whenIdle (i : Instr) (s : State) : exec i s = whenIdle s (commandRule i) := by cases i <;> rfl

theorem exec_of_idle (i : Instr) {s : State} (hs : s.mode = .idle) : exec i s = .next (commandRule i s) := by
  simp [exec_eq_whenIdle, whenIdle, hs]

/-- A command in MODE = 1 leaves the state as it is, and in MODE = 0 it leaves what its rule gives. -/
theorem exec_next_cases {i : Instr} {s t : State} (h : exec i s = .next t) :
    (s.mode = .fault ∧ t = s) ∨ (s.mode = .idle ∧ t = commandRule i s) := by
  rw [exec_eq_whenIdle] at h
  rcases whenIdle_cases s (commandRule i) with ⟨hm, e⟩ | ⟨hm, e⟩ <;> rw [e] at h <;> cases h
  · exact .inr ⟨hm, rfl⟩
  · exact .inl ⟨hm, rfl⟩

/-- What a command keeps if its rule keeps it in MODE = 0 and it is kept when nothing changes. -/
theorem exec_keeps {i : Instr} {s t : State} (h : exec i s = .next t) (P : State → Prop) (hs : P s)
    (hrule : s.mode = .idle → P (commandRule i s)) : P t := by
  rcases exec_next_cases h with ⟨_, rfl⟩ | ⟨hm, rfl⟩
  · exact hs
  · exact hrule hm

end Sys2Proof.Machine
end

section
/-! SUPPORT. The loop over cell ordinals (R12) cut into blocks and pairs of cells, and with it the loop nests of the
pseudocode of R81 and R90. -/

namespace Sys2Proof.Machine

/-- `n` cells from ordinal `c` on, unless an earlier fault has ended the command (R143). -/
def cellsUnlessEnded (cell : Nat → State → State) (n c : Nat) (s : State) : State :=
  if s.mode = .fault then s else forCells cell n c s

theorem cellsUnlessEnded_of_idle (cell : Nat → State → State) (n c : Nat) {s : State} (hs : s.mode = .idle) :
    cellsUnlessEnded cell n c s = forCells cell n c s := by simp [cellsUnlessEnded, hs]

theorem cellsUnlessEnded_zero (cell : Nat → State → State) (c : Nat) (s : State) :
    cellsUnlessEnded cell 0 c s = s := by simp [cellsUnlessEnded, forCells]

theorem cellsUnlessEnded_add (cell : Nat → State → State) (n k c : Nat) (s : State) :
    cellsUnlessEnded cell (n + k) c s = cellsUnlessEnded cell k (c + n) (cellsUnlessEnded cell n c s) := by
  cases hs : s.mode with
  | fault => simp [cellsUnlessEnded, hs]
  | idle =>
    rw [cellsUnlessEnded_of_idle _ _ _ hs, cellsUnlessEnded_of_idle _ _ _ hs, forCells_add _ _ _ _ _ hs,
      cellsUnlessEnded]

/-- A loop over `m` blocks of `n` cells is a fold over the blocks. -/
theorem cellsUnlessEnded_mul (cell : Nat → State → State) (m n c : Nat) (s : State) :
    cellsUnlessEnded cell (m * n) c s =
      (List.range m).foldl (fun s j => cellsUnlessEnded cell n (c + j * n) s) s := by
  induction m with
  | zero => simp [cellsUnlessEnded_zero]
  | succ m ih => rw [Nat.add_one_mul, cellsUnlessEnded_add, ih, List.range_succ, List.foldl_append]; rfl

/-- A loop nest is the loop over the ordinals of its cells when each body of it is the block of `n` cells it stands for. -/
theorem foldl_eq_cellsUnlessEnded (cell : Nat → State → State) (m n c : Nat) (body : State → Nat → State)
    (hbody : ∀ j < m, ∀ s, body s j = cellsUnlessEnded cell n (c + j * n) s) (s : State) :
    (List.range m).foldl body s = cellsUnlessEnded cell (m * n) c s := by
  rw [cellsUnlessEnded_mul]
  exact List.foldl_ext _ _ _ fun s j hj => hbody j (List.mem_range.1 hj) s

/-- Two cells in a row, the second counted at the address `b` that the first increment does not change. -/
theorem cellsUnlessEnded_two (cell : Nat → State → State) (a b c : Nat) (s : State) (h0 : cell c s = histInc a c s)
    (h1 : cell (c + 1) (histInc a c s) = histInc b (c + 1) (histInc a c s)) :
    cellsUnlessEnded cell 2 c s = incUnlessEnded b (c + 1) (incUnlessEnded a c s) := by
  cases hs : s.mode with
  | fault => simp [cellsUnlessEnded, incUnlessEnded, hs]
  | idle =>
    rw [cellsUnlessEnded_of_idle _ _ _ hs]
    simp only [forCells, incUnlessEnded, h0, h1, hs, ite_self]
    rfl

/-- An increment leaves every memory but HIST. -/
theorem memRead_histInc_other (a c : Nat) (s : State) (m : MemId) (i : Nat) (hm : m ≠ .hist) :
    memRead m i (histInc a c s) = memRead m i s := by
  rcases histInc_cases a c s with ⟨_, e⟩ | ⟨_, e⟩ <;> rw [e]
  · exact memRead_raise _ _ _ s m i
  · exact memRead_memWrite_other _ _ _ _ _ _ (.inl hm)

/-! ### The addresses of DEC0 and DEC2 -/

/-- The address of a DEC0 cell depends on BLK and META alone. -/
theorem dec0Addr_congr {s t : State} (h : SameReadsBut [.hist] s t) (c : Nat) : dec0Addr c t = dec0Addr c s := by
  simp only [dec0Addr, h .metadata (by decide), h .blk (by decide)]

/-- The address of a DEC2 cell depends on BLK, META, ADD and ADD2 alone. -/
theorem dec2Addr_congr {s t : State} (h : SameReadsBut [.hist] s t) (ysec : BitVec 8) (idlimit : BitVec 24) (c : Nat) :
    dec2Addr ysec idlimit c t = dec2Addr ysec idlimit c s := by
  simp only [dec2Addr, h .metadata (by decide), h .blk (by decide), h .add (by decide), h .add2 (by decide)]

theorem sameReadsBut_histInc (a c : Nat) (s : State) : SameReadsBut [.hist] s (histInc a c s) :=
  fun m hm i => memRead_histInc_other a c s m i (by simpa using hm)

theorem flatId_toNat (b : Byte) (m : Nibble) : (flatId b m).toNat = b.toNat <<< 4 ||| m.toNat :=
  BitVec.toNat_append b m

theorem extendedId_toNat (a2 a : Nibble) (b : Byte) (m : Nibble) :
    (extendedId a2 a b m).toNat = a2.toNat <<< 16 ||| a.toNat <<< 12 ||| b.toNat <<< 4 ||| m.toNat := by
  simp only [extendedId, BitVec.toNat_append, Nat.shiftLeft_or_distrib, ← Nat.shiftLeft_add]

theorem cellNibble_even {c : Nat} (h : c % 2 = 0) (b : Byte) : cellNibble c b = lo4 b := if_pos h

theorem cellNibble_odd {c : Nat} (h : c % 2 = 1) (b : Byte) : cellNibble c b = hi4 b := if_neg (by omega)

/-- The pair of R81 is the two cells of its nibble pair. -/
theorem flatPair_eq (column h : Nat) (hh : h < 64) (s : State) :
    flatPair column (2 * h) s = cellsUnlessEnded dec0Cell 2 (column * 128 + h * 2) s := by
  have hc : column * 128 + h * 2 = 2 * h + column * 128 := by omega
  rw [hc, cellsUnlessEnded_two dec0Cell _ _ _ s rfl (by rw [dec0Cell, dec0Addr_congr (sameReadsBut_histInc _ _ s)])]
  have hy0 : (2 * h + column * 128) % 128 = 2 * h := by omega
  have hy1 : (2 * h + column * 128 + 1) % 128 = 2 * h + 1 := by omega
  have hpair : (2 * h + column * 128 + 1) / 2 = (2 * h + column * 128) / 2 := by omega
  simp only [flatPair, dec0Addr, Config.heightV0, Config.idlimitV0, flatId_toNat, hy0, hy1, hpair,
    cellNibble_even (show (2 * h + column * 128) % 2 = 0 by omega),
    cellNibble_odd (show (2 * h + column * 128 + 1) % 2 = 1 by omega)]

/-- The pair of R90 is the two cells of its slot. -/
theorem extendedPair_eq (ysec : BitVec 8) (idlimit : BitVec 24) (yLocal zx : Nat) (hzx : zx < 128) (s : State) :
    extendedPair ysec idlimit yLocal zx s =
      cellsUnlessEnded (dec2Cell ysec idlimit) 2 (yLocal * 256 + zx * 2) s := by
  have hc : yLocal * 256 + zx * 2 = (zx + yLocal * 128) * 2 := by omega
  rw [hc, cellsUnlessEnded_two (dec2Cell ysec idlimit) _ _ _ s rfl
    (by rw [dec2Cell, dec2Addr_congr (sameReadsBut_histInc _ _ s)])]
  have hslot0 : (zx + yLocal * 128) * 2 / 2 = zx + yLocal * 128 := by omega
  have hslot1 : ((zx + yLocal * 128) * 2 + 1) / 2 = zx + yLocal * 128 := by omega
  have hlayer0 : (zx + yLocal * 128) * 2 / 256 = yLocal := by omega
  have hlayer1 : ((zx + yLocal * 128) * 2 + 1) / 256 = yLocal := by omega
  simp only [extendedPair, dec2Addr, sectionLayer, Config.columns, Config.height, extendedId_toNat, hslot0, hslot1,
    hlayer0, hlayer1, cellNibble_even (show (zx + yLocal * 128) * 2 % 2 = 0 by omega),
    cellNibble_odd (show ((zx + yLocal * 128) * 2 + 1) % 2 = 1 by omega)]

/-! ### The loop nests -/

theorem flatLoop_eq (s : State) : flatLoop s = cellsUnlessEnded dec0Cell (256 * 128) 0 s := by
  refine foldl_eq_cellsUnlessEnded _ _ _ _ _ (fun column _ s => ?_) s
  rw [Nat.zero_add]
  exact foldl_eq_cellsUnlessEnded _ 64 2 _ _ (fun h hh s => flatPair_eq column h hh s) s

theorem extendedLoop_eq (ysec : BitVec 8) (idlimit : BitVec 24) (s : State) :
    extendedLoop ysec idlimit s = cellsUnlessEnded (dec2Cell ysec idlimit) (16 * 256) 0 s := by
  refine foldl_eq_cellsUnlessEnded _ _ _ _ _ (fun yLocal _ s => ?_) s
  rw [Nat.zero_add]
  exact foldl_eq_cellsUnlessEnded _ 128 2 _ _ (fun zx hzx s => extendedPair_eq ysec idlimit yLocal zx hzx s) s

/-- Settles O26: the column loop is the loop over cell ordinals in 256 blocks of 64 pairs. -/
theorem dec0IsTheColumnLoop : Obligations.Dec0IsTheColumnLoop := by
  intro s hs
  rw [exec_of_idle _ hs, flatLoop_eq, cellsUnlessEnded_of_idle _ _ _ hs]
  rfl

/-- Settles O30: the slot loop is the loop over cell ordinals in 16 blocks of 128 pairs. -/
theorem dec2IsTheSlotLoop : Obligations.Dec2IsTheSlotLoop := by
  intro s ysec idlimit hs
  rw [exec_of_idle _ hs, extendedLoop_eq, cellsUnlessEnded_of_idle _ _ _ hs]
  rfl

end Sys2Proof.Machine
end

section
/-! SUPPORT. What a command can do: the frame of a loop of counting cells (R81, R90, R123), of an unpack (R103, R104), and
of every command by its rule (R25). -/

namespace Sys2Proof.Machine

theorem SameOwn.refl (s : State) : SameOwn s s := ⟨rfl, rfl, rfl, rfl⟩

theorem SameOwn.trans {s t u : State} (h : SameOwn s t) (h' : SameOwn t u) : SameOwn s u :=
  ⟨h'.histCells.trans h.histCells, h'.draw.trans h.draw, h'.pending.trans h.pending, h'.answer.trans h.answer⟩

theorem SameOwn.memWrite {s t : State} (h : SameOwn s t) (m : MemId) (i : Nat) (v : BitVec m.width) :
    SameOwn s (memWrite m i v t) :=
  h.trans ⟨memWrite_histCells m i v t, memWrite_draw m i v t, memWrite_pending m i v t, memWrite_answer m i v t⟩

theorem SameOwn.raise {s t : State} (h : SameOwn s t) (cause : Cause) (info : BitVec 15) (val : Word) :
    SameOwn s (raise cause info val t) := h.trans ⟨rfl, rfl, rfl, rfl⟩

theorem SameRegisters.refl (s : State) : SameRegisters s s := ⟨rfl, rfl, rfl, rfl, rfl, rfl, rfl⟩

theorem SameRegisters.trans {s t u : State} (h : SameRegisters s t) (h' : SameRegisters t u) : SameRegisters s u :=
  ⟨h'.mode.trans h.mode, h'.cause.trans h.cause, h'.uw.trans h.uw, h'.wreg.trans h.wreg, h'.outcnt.trans h.outcnt,
    h'.finfo.trans h.finfo, h'.fval.trans h.fval⟩

theorem SameRegisters.memWrite {s t : State} (h : SameRegisters s t) (m : MemId) (i : Nat) (v : BitVec m.width) :
    SameRegisters s (memWrite m i v t) :=
  h.trans ⟨by simp, by simp, by simp, by simp, by simp, by simp, by simp⟩

theorem SameReadsBut.mono {ms ms' : List MemId} (hsub : ms ⊆ ms') {s t : State} (h : SameReadsBut ms s t) :
    SameReadsBut ms' s t := fun m hm i => h m (fun hm' => hm (hsub hm')) i

theorem SameReadsBut.trans {ms : List MemId} {s t u : State} (h : SameReadsBut ms s t) (h' : SameReadsBut ms t u) :
    SameReadsBut ms s u := fun m hm i => (h' m hm i).trans (h m hm i)

/-! ### Counting cells -/

/-- A cell of a counting command leaves the record of a fault, or adds 1 to the counter at `a`, inside the bank. -/
def CountsOrFaults (a : Nat) (s t : State) : Prop :=
  (∃ cause info val, FaultRecordOk (raise cause info val s) ∧ t = raise cause info val s) ∨
    (a < s.histCells ∧ t = memWrite .hist a (memRead .hist a s + 1) s)

theorem faultRecordOk_raise_histOob {a : Nat} {s : State} (info : BitVec 15) (ha : s.histCells ≤ a) (ha' : a < 2 ^ 36) :
    FaultRecordOk (raise .histOob info (BitVec.ofNat 64 a) s) where
  cause_iff := by simp
  idle_clear := by simp
  decode_finfo := by simp
  pal_fval := by simp
  hist_fval := by
    have hval : (BitVec.ofNat 64 a).toNat = a := by rw [BitVec.toNat_ofNat]; omega
    simp only [raise_histCells, raise_fval, hval]
    exact fun _ => ⟨ha, ha'⟩

theorem faultRecordOk_raise_palOob {i li : Nat} (s : State) (hi : i < 4096) (hli : li < 65536) :
    FaultRecordOk (raise .palOob (BitVec.ofNat 15 i) (BitVec.ofNat 64 li) s) where
  cause_iff := by simp
  idle_clear := by simp
  decode_finfo := by simp
  pal_fval := by
    have hval : (BitVec.ofNat 64 li).toNat = li := by rw [BitVec.toNat_ofNat]; omega
    have hinfo : (BitVec.ofNat 15 i).toNat = i := by rw [BitVec.toNat_ofNat]; omega
    simp only [raise_finfo, raise_fval, hval, hinfo]
    exact fun _ => ⟨hli, hi⟩
  hist_fval := by simp

/-- A fault of decode has FINFO 0 (R18). -/
theorem faultRecordOk_raise_decode (e : DecodeError) (x : Word) (s : State) :
    FaultRecordOk (raise (causeOf e) 0 x s) where
  cause_iff := by cases e <;> simp [causeOf]
  idle_clear := by simp
  decode_finfo := fun _ => rfl
  pal_fval := by cases e <;> simp [causeOf]
  hist_fval := by cases e <;> simp [causeOf]

theorem histInc_countsOrFaults {a : Nat} (ha : a < 2 ^ 36) (c : Nat) (s : State) :
    CountsOrFaults a s (histInc a c s) := by
  rcases histInc_cases a c s with ⟨h, e⟩ | ⟨h, e⟩
  · exact .inl ⟨_, _, _, faultRecordOk_raise_histOob _ h ha, e⟩
  · exact .inr ⟨h, e⟩

/-- Any address of a layer of at most 4095 with 24-bit row length and identifier is below 2^36 (R71). -/
theorem histAddr_lt {layer idlimit id : Nat} (hl : layer ≤ 4095) (hi : idlimit < 2 ^ 24) (hid : id < 2 ^ 24) :
    histAddr layer idlimit id < 2 ^ 36 := by
  have hrow : layer * idlimit ≤ 4095 * (2 ^ 24 - 1) := Nat.mul_le_mul hl (by omega)
  unfold histAddr
  omega

theorem sectionLayer_le (ysec : BitVec 8) {c : Nat} (hc : c < 4096) : sectionLayer ysec (c / Config.columns) ≤ 4095 := by
  have := ysec.isLt
  simp only [sectionLayer, Config.columns, Config.height]
  omega

theorem dec0Cell_countsOrFaults (c : Nat) (s : State) : CountsOrFaults (dec0Addr c s) s (dec0Cell c s) := by
  refine histInc_countsOrFaults (histAddr_lt ?_ (by decide) ?_) c s
  · have : c % 128 < 128 := Nat.mod_lt _ (by decide)
    simp only [Config.heightV0]
    omega
  · exact (BitVec.isLt _).trans (by decide)

theorem dec2Cell_countsOrFaults (ysec : BitVec 8) (idlimit : BitVec 24) {c : Nat} (hc : c < 4096) (s : State) :
    CountsOrFaults (dec2Addr ysec idlimit c s) s (dec2Cell ysec idlimit c s) :=
  histInc_countsOrFaults (histAddr_lt (sectionLayer_le ysec hc) idlimit.isLt ((BitVec.isLt _).trans (by decide))) c s

theorem paccCell_countsOrFaults (ysec : BitVec 8) (idlimit : BitVec 24) (maxpal : BitVec 16) {c : Nat} (hc : c < 4096)
    (s : State) :
    CountsOrFaults (paccAddr ysec idlimit c (memRead .idx c s).toNat s) s (paccCell ysec idlimit maxpal c s) := by
  rcases paccCell_cases ysec idlimit maxpal c s with ⟨_, e⟩ | ⟨_, e⟩ <;> rw [e]
  · exact .inl ⟨_, _, _, faultRecordOk_raise_palOob s hc (BitVec.isLt _), rfl⟩
  · exact histInc_countsOrFaults (histAddr_lt (sectionLayer_le ysec hc) idlimit.isLt (BitVec.isLt _)) c s

/-- `t` is `s` but for a fault record and for the counters at `addr 0` to `addr (n - 1)`. -/
structure CountingFrame (addr : Nat → Nat) (n : Nat) (s t : State) : Prop where
  reads : SameReadsBut [.hist] s t
  own : SameOwn s t
  uw : t.uw = s.uw
  wreg : t.wreg = s.wreg
  outcnt : t.outcnt = s.outcnt
  registers : t.mode = .idle → SameRegisters s t
  counters : ∀ a, (∀ c < n, addr c ≠ a) → memRead .hist a t = memRead .hist a s

theorem CountingFrame.refl (addr : Nat → Nat) (n : Nat) (s : State) : CountingFrame addr n s s :=
  ⟨fun _ _ _ => rfl, .refl s, rfl, rfl, rfl, fun _ => .refl s, fun _ _ => rfl⟩

/-- One more cell, whose address is among those of the frame, keeps the frame. -/
theorem CountingFrame.cell {addr : Nat → Nat} {n c : Nat} {s t u : State} (h : CountingFrame addr n s t) (hc : c < n)
    (hcell : CountsOrFaults (addr c) t u) : CountingFrame addr n s u := by
  rcases hcell with ⟨cause, info, val, _, rfl⟩ | ⟨_, rfl⟩
  · exact
      { reads := fun m hm i => (memRead_raise cause info val t m i).trans (h.reads m hm i)
        own := h.own.raise _ _ _
        uw := h.uw
        wreg := h.wreg
        outcnt := h.outcnt
        registers := fun hidle => nomatch hidle
        counters := fun a ha => (memRead_raise cause info val t .hist a).trans (h.counters a ha) }
  · have hother : ∀ m i, m ≠ .hist ∨ i ≠ addr c →
        memRead m i (memWrite .hist (addr c) (memRead .hist (addr c) t + 1) t) = memRead m i t :=
      fun m i hmi => memRead_memWrite_other _ _ _ m i t hmi
    exact
      { reads := fun m hm i => (hother m i (.inl (by simpa using hm))).trans (h.reads m hm i)
        own := h.own.memWrite _ _ _
        uw := by simp [h.uw]
        wreg := by simp [h.wreg]
        outcnt := by simp [h.outcnt]
        registers := fun hidle => (h.registers (by simpa using hidle)).memWrite _ _ _
        counters := fun a ha => (hother .hist a (.inr (Ne.symm (ha c hc)))).trans (h.counters a ha) }

/-- A loop of counting cells has the frame of the addresses its cells have at the start, when those are read from memories
other than HIST. -/
theorem forCells_frame (cell : Nat → State → State) (addr : Nat → State → Nat) (n : Nat) (s : State)
    (hcell : ∀ c < n, ∀ t, CountsOrFaults (addr c t) t (cell c t))
    (haddr : ∀ c t, SameReadsBut [.hist] s t → addr c t = addr c s) :
    CountingFrame (fun c => addr c s) n s (forCells cell n 0 s) :=
  forCells_keeps cell (CountingFrame (fun c => addr c s) n s) n 0 s (.refl _ n s) fun c t _ hc h =>
    h.cell (c := c) (by omega) (haddr c t h.reads ▸ hcell c (by omega) t)

theorem paccAddr_congr {s t : State} (h : SameReadsBut [.hist] s t) (ysec : BitVec 8) (idlimit : BitVec 24) (c : Nat) :
    paccAddr ysec idlimit c (memRead .idx c t).toNat t = paccAddr ysec idlimit c (memRead .idx c s).toNat s := by
  simp only [paccAddr, h .idx (by decide), h .pal (by decide)]

theorem dec0_frame (s : State) : CountingFrame (fun c => dec0Addr c s) 32768 s (commandRule .dec0 s) :=
  forCells_frame dec0Cell dec0Addr 32768 s (fun c _ => dec0Cell_countsOrFaults c) fun c _ h => dec0Addr_congr h c

theorem dec2_frame (ysec : BitVec 8) (idlimit : BitVec 24) (s : State) :
    CountingFrame (fun c => dec2Addr ysec idlimit c s) 4096 s (commandRule (.dec2 ysec idlimit) s) :=
  forCells_frame (dec2Cell ysec idlimit) (dec2Addr ysec idlimit) 4096 s
    (fun _ hc => dec2Cell_countsOrFaults ysec idlimit hc) fun c _ h => dec2Addr_congr h ysec idlimit c

theorem palAcc_frame (ysec : BitVec 8) (idlimit : BitVec 24) (maxpal : BitVec 16) (s : State) :
    CountingFrame (fun c => paccAddr ysec idlimit c (memRead .idx c s).toNat s) 4096 s
      (palAcc ysec idlimit maxpal s) :=
  forCells_frame (paccCell ysec idlimit maxpal) (fun c t => paccAddr ysec idlimit c (memRead .idx c t).toNat t) 4096 s
    (fun _ hc => paccCell_countsOrFaults ysec idlimit maxpal hc) fun c _ h => paccAddr_congr h ysec idlimit c

/-! ### Unpacks -/

/-- IDX `mem'` is IDX `mem` after writes of entries 0 to 4095. -/
inductive EntriesWritten (mem : Memory 16) : Memory 16 → Prop
  | none : EntriesWritten mem mem
  | write {mem' : Memory 16} (h : EntriesWritten mem mem') {n : Nat} (hn : n < Config.cells) (v : BitVec 16) :
      EntriesWritten mem (mem'.set n v)

/-- The unpacker has produced at most 4096 values and written no entry of IDX past them. -/
def Filling (mem : Memory 16) (b : Bsu) : Prop := b.n ≤ Config.cells ∧ EntriesWritten mem b.idx

theorem Filling.emit {mem : Memory 16} {b : Bsu} (h : Filling mem b) (hn : b.n ≠ Config.cells) (v : BitVec 16) :
    Filling mem (bsuEmit v b) :=
  have hlt : b.n < Config.cells := lt_of_le_of_ne h.1 hn
  ⟨hlt, h.2.write hlt v⟩

theorem wcDrain_filling {mem : Memory 16} (w fuel : Nat) {b : Bsu} (h : Filling mem b) :
    Filling mem (wcDrain w fuel b) := by
  induction fuel generalizing b with
  | zero => exact h
  | succ fuel ih =>
    by_cases hgo : w ≤ b.nbits ∧ b.n ≠ Config.cells
    · simpa only [wcDrain, if_pos hgo] using ih (b := wcTake w b) (h.emit hgo.2 _)
    · simpa only [wcDrain, if_neg hgo] using h

theorem wcFeed_filling {mem : Memory 16} (w : Nat) (half : BitVec 32) {b : Bsu} (h : Filling mem b) :
    Filling mem (wcFeed w half b) := by
  unfold wcFeed
  split
  · exact h
  · exact wcDrain_filling w _ h

theorem wcWord_filling {mem : Memory 16} (w : Nat) (word : Word) {b : Bsu} (h : Filling mem b) :
    Filling mem (wcWord w word b) :=
  wcFeed_filling w _ (wcFeed_filling w _ h)

theorem ncTake_filling {mem : Memory 16} (w : Nat) (word : Word) (count j : Nat) {b : Bsu} (h : Filling mem b) :
    Filling mem (ncTake w word count j b) := by
  induction count generalizing j b with
  | zero => exact h
  | succ count ih =>
    by_cases hf : b.n = Config.cells
    · simpa only [ncTake, if_pos hf] using h
    · simpa only [ncTake, if_neg hf] using ih (j + 1) (h.emit hf _)

theorem ncWord_filling {mem : Memory 16} (w : Nat) (word : Word) {b : Bsu} (h : Filling mem b) :
    Filling mem (ncWord w word b) := ncTake_filling w word _ 0 h

/-- `t` is `s` with OUTCNT 4096 and entries 0 to 4095 of IDX written. -/
def Unpacked (s t : State) : Prop :=
  ∃ mem, EntriesWritten s.idx mem ∧ t = setOutcntFull (s.setCells .idx mem)

theorem unpackInto_unpacked (takeWord : Word → Bsu → Bsu) (s : State)
    (hword : ∀ word b, Filling s.idx b → Filling s.idx (takeWord word b)) : Unpacked s (unpackInto takeWord s) := by
  have hstart : Filling s.idx (bsuStart s.idx) := ⟨Nat.zero_le _, .none⟩
  have hend := (unpackWords_cases takeWord (fun k => memRead .pk k s) (Filling s.idx) (fun b hb _ => hword _ b hb)
    Config.pkWords (bsuStart s.idx) hstart).1
  exact ⟨_, hend.2, rfl⟩

theorem unpackWc_unpacked (w : Nat) (s : State) : Unpacked s (unpackWc w s) :=
  unpackInto_unpacked _ s fun word _ => wcWord_filling w word

theorem unpackNc_unpacked (w : Nat) (s : State) : Unpacked s (unpackNc w s) :=
  unpackInto_unpacked _ s fun word _ => ncWord_filling w word

/-- Written entries of IDX are entries 0 to 4095: the others read as before. -/
theorem EntriesWritten.memRead_beyond {s : State} {mem : Memory 16} (h : EntriesWritten s.idx mem) {n : Nat}
    (hn : 4096 ≤ n) : memRead .idx n (s.setCells .idx mem) = memRead .idx n s := by
  induction h with
  | none => rfl
  | @write mem' _ k hk v ih =>
    have hne : n ≠ k := by simp only [Config.cells] at hk; omega
    exact (memRead_memWrite_other .idx k v .idx n (s.setCells .idx mem') (.inr hne)).trans ih

theorem Unpacked.memRead_beyond {s t : State} (h : Unpacked s t) {n : Nat} (hn : 4096 ≤ n) :
    memRead .idx n t = memRead .idx n s := by
  obtain ⟨mem, hmem, rfl⟩ := h
  exact (memRead_setOutcntFull _ _ _).trans (hmem.memRead_beyond hn)

theorem Unpacked.reads {s t : State} (h : Unpacked s t) : SameReadsBut [.idx] s t := by
  obtain ⟨mem, _, rfl⟩ := h
  intro m hm i
  exact memRead_congr m i (by simpa using State.cells_setCells_other s .idx mem m (by simpa using hm)) (by simp)

theorem Unpacked.own {s t : State} (h : Unpacked s t) : SameOwn s t := by
  obtain ⟨mem, _, rfl⟩ := h
  exact ⟨rfl, rfl, rfl, rfl⟩

/-- An unpack writes no register but OUTCNT. -/
theorem Unpacked.registers {s t : State} (h : Unpacked s t) :
    t.mode = s.mode ∧ t.cause = s.cause ∧ t.uw = s.uw ∧ t.wreg = s.wreg ∧ t.finfo = s.finfo ∧ t.fval = s.fval := by
  obtain ⟨mem, _, rfl⟩ := h
  exact ⟨rfl, rfl, rfl, rfl, rfl, rfl⟩

/-- What an UNPK can do: nothing in MODE = 1, the fault of w below 4, the flag of w above 16, else an unpack. -/
theorem exec_unpk_cases {w : BitVec 5} {s t : State} (h : exec (.unpkWc w) s = .next t ∨ exec (.unpkNc w) s = .next t) :
    t = s ∨ (w.toNat < 4 ∧ ∃ x, t = raise .widthBelowMin 0 x s) ∨ (16 < w.toNat ∧ t = flagUnsupportedWidth s) ∨
      (4 ≤ w.toNat ∧ w.toNat ≤ 16 ∧ Unpacked s t) := by
  have hrule : ∀ i unpack, (∀ w s, Unpacked s (unpack w s)) → t = unpkRule i w unpack s →
      (w.toNat < 4 ∧ ∃ x, t = raise .widthBelowMin 0 x s) ∨ (16 < w.toNat ∧ t = flagUnsupportedWidth s) ∨
        (4 ≤ w.toNat ∧ w.toNat ≤ 16 ∧ Unpacked s t) := by
    rintro i unpack hunpack rfl
    rcases unpkRule_cases i w unpack s with ⟨hw, e⟩ | ⟨hw, e⟩ | ⟨hw, hw', e⟩
    · exact .inl ⟨hw, _, e⟩
    · exact .inr (.inl ⟨hw, e⟩)
    · exact .inr (.inr ⟨hw, hw', e ▸ hunpack _ _⟩)
  rcases h with h | h
  · exact (exec_next_cases h).imp And.right fun h' => hrule _ _ unpackWc_unpacked h'.2
  · exact (exec_next_cases h).imp And.right fun h' => hrule _ _ unpackNc_unpacked h'.2

/-- What a DEC13 can do: nothing in MODE = 1, else an unpack with WREG selected, and then the loop of PACC. -/
theorem exec_dec13_cases {y : BitVec 8} {l : BitVec 24} {m : BitVec 16} {s t : State}
    (h : exec (.dec13Wc y l m) s = .next t ∨ exec (.dec13Nc y l m) s = .next t) :
    (s.mode = .fault ∧ t = s) ∨ ∃ u, Unpacked (setWreg (widthSel m) s) u ∧ t = palAcc y l m u := by
  rcases h with h | h
  · exact (exec_next_cases h).imp_right fun h' => ⟨_, unpackWc_unpacked _ _, h'.2⟩
  · exact (exec_next_cases h).imp_right fun h' => ⟨_, unpackNc_unpacked _ _, h'.2⟩

end Sys2Proof.Machine
end

section
/-! SUPPORT. What each command leaves unchanged (R25). -/

namespace Sys2Proof.Machine

/-- A command whose rule has a counting frame has it in either MODE. -/
theorem exec_counting_frame {i : Instr} {s t : State} {addr : Nat → Nat} {n : Nat} (h : exec i s = .next t)
    (hrule : CountingFrame addr n s (commandRule i s)) : CountingFrame addr n s t :=
  exec_keeps h _ (.refl addr n s) fun _ => hrule

/-- Settles O50: each of the three commands is a loop of counting cells. -/
theorem countingCommandsFrame : Obligations.CountingCommandsFrame := by
  intro i s t h hi
  rcases hi with rfl | ⟨y, l, rfl⟩ | ⟨y, l, m, rfl⟩
  · have f := exec_counting_frame h (dec0_frame s)
    exact ⟨f.reads, f.own, f.uw, f.wreg, f.outcnt, f.registers, fun _ => f.counters, nofun, nofun⟩
  · have f := exec_counting_frame h (dec2_frame y l s)
    exact ⟨f.reads, f.own, f.uw, f.wreg, f.outcnt, f.registers, nofun, fun _ _ e => by cases e; exact f.counters,
      nofun⟩
  · have f := exec_counting_frame h (palAcc_frame y l m s)
    exact ⟨f.reads, f.own, f.uw, f.wreg, f.outcnt, f.registers, nofun, nofun,
      fun _ _ _ e => by cases e; exact f.counters⟩

/-- Settles O51, by the four things an UNPK can do. -/
theorem unpkFrame : Obligations.UnpkFrame := by
  intro w s t h
  rcases exec_unpk_cases h with rfl | ⟨hw, x, rfl⟩ | ⟨hw, rfl⟩ | ⟨hw, hw', hu⟩
  · exact ⟨fun _ _ _ => rfl, .refl t, rfl, fun _ => ⟨rfl, rfl, rfl, rfl⟩, fun _ => rfl, fun _ => rfl, fun _ _ => rfl⟩
  · exact ⟨fun m _ i => memRead_raise _ _ _ s m i, .raise (.refl s) _ _ _, rfl, fun h4 => by omega, fun _ => rfl,
      fun _ => rfl, fun n _ => memRead_raise _ _ _ s .idx n⟩
  · exact ⟨fun m _ i => memRead_flagUnsupportedWidth s m i, ⟨rfl, rfl, rfl, rfl⟩, rfl, fun _ => ⟨rfl, rfl, rfl, rfl⟩,
      fun h16 => by omega, fun h4 => by omega, fun n _ => memRead_flagUnsupportedWidth s .idx n⟩
  · obtain ⟨hmode, hcause, huw, hwreg, hfinfo, hfval⟩ := hu.registers
    exact ⟨hu.reads, hu.own, hwreg, fun _ => ⟨hmode, hcause, hfinfo, hfval⟩, fun _ => huw, fun h4 => by omega,
      fun n hn => hu.memRead_beyond (by omega)⟩

theorem sameReadsBut_setWreg (w : Nat) (s : State) : SameReadsBut [] s (setWreg w s) :=
  fun m _ i => memRead_setWreg w s m i

/-- Settles O52: the frame of the width selection, the unpack and the loop of PACC in a row. -/
theorem dec13Frame : Obligations.Dec13Frame := by
  intro y l m s t h
  rcases exec_dec13_cases h with ⟨_, rfl⟩ | ⟨u, hu, rfl⟩
  · exact ⟨fun _ _ _ => rfl, .refl t, rfl, fun _ => ⟨rfl, rfl, rfl⟩, fun _ _ => rfl, fun _ _ => rfl⟩
  · have f := palAcc_frame y l m u
    obtain ⟨_, hcause, huw, _, hfinfo, hfval⟩ := hu.registers
    have hsel := sameReadsBut_setWreg (widthSel m) s
    have hsu : SameReadsBut [.idx] s u := (hsel.mono (by simp)).trans hu.reads
    refine ⟨(hsu.mono (by simp)).trans (f.reads.mono (by simp)),
      SameOwn.trans (t := setWreg (widthSel m) s) ⟨rfl, rfl, rfl, rfl⟩ (hu.own.trans f.own), f.uw.trans huw,
      fun hidle => ?_, fun n hn => ?_, fun a ha => ?_⟩
    · have r := f.registers hidle
      exact ⟨r.cause.trans hcause, r.finfo.trans hfinfo, r.fval.trans hfval⟩
    · calc memRead .idx n (palAcc y l m u) = memRead .idx n u := f.reads .idx (by decide) n
        _ = memRead .idx n (setWreg (widthSel m) s) := hu.memRead_beyond hn
        _ = memRead .idx n s := hsel .idx (by decide) n
    · have hcells : ∀ c < 4096, paccAddr y l c (memRead .idx c u).toNat u ≠ a :=
        fun c hc => paccAddr_congr f.reads y l c ▸ ha c hc
      exact (f.counters a hcells).trans (hsu .hist (by decide) a)

/-- Settles O53, from the frame of each command. -/
theorem commandsWriteNoInputMemory : Obligations.CommandsWriteNoInputMemory := by
  intro i s t h
  cases i with
  | dec0 => exact (countingCommandsFrame _ s t h (.inl rfl)).1.mono (by simp)
  | dec2 y l => exact (countingCommandsFrame _ s t h (.inr (.inl ⟨y, l, rfl⟩))).1.mono (by simp)
  | pacc y l m => exact (countingCommandsFrame _ s t h (.inr (.inr ⟨y, l, m, rfl⟩))).1.mono (by simp)
  | unpkWc w => exact (unpkFrame w s t (.inl h)).1.mono (by simp)
  | unpkNc w => exact (unpkFrame w s t (.inr h)).1.mono (by simp)
  | dec13Wc y l m => exact (dec13Frame y l m s t (.inl h)).1
  | dec13Nc y l m => exact (dec13Frame y l m s t (.inr h)).1
  | wsel m =>
    exact exec_keeps h (SameReadsBut _ s) (fun _ _ _ => rfl) fun _ => (sameReadsBut_setWreg _ s).mono (by simp)

end Sys2Proof.Machine
end

section
/-! SUPPORT. What a step can do (R39, R44), and what it does to UW (R15, R101). -/

namespace Sys2Proof.Machine

/-- What a step that answers a next state can have done: nothing but the host port's own fields, one entry of a memory
stored, a reset, or the issue in MODE = 0 of a word that is refused by decode or executed. -/
theorem step_next_cases {s t : State} (h : step s = .next t) :
    (∃ p a, t = { s with pending := p, answer := a }) ∨
      (∃ rest m i v, i < s.sizeOf m ∧ t = memWrite m i v { s with pending := rest }) ∨
      (∃ rest, s.pending = .reset :: rest ∧ t = takeReset { s with pending := rest }) ∨
      ∃ x rest, s.pending = .writeCsr 0 x :: rest ∧ s.mode = .idle ∧
        ((∃ e, decode x = .error e ∧ t = raise (causeOf e) 0 x { s with pending := rest }) ∨
          ∃ i, decode x = .ok i ∧ exec i { s with pending := rest } = .next t) := by
  cases hp : s.pending with
  | nil =>
    rw [step_empty s hp] at h
    cases h
    exact .inl ⟨_, _, rfl⟩
  | cons a rest =>
    rw [step_action s a rest hp] at h
    have hsize : ∀ m, State.sizeOf { s with pending := rest } m = s.sizeOf m := fun m => by cases m <;> rfl
    cases a with
    | write m i v =>
      rcases hostWrite_cases m i v { s with pending := rest } with ⟨hi, _, e⟩ | ⟨r, e⟩
      · cases e.symm.trans h
        exact .inr (.inl ⟨rest, m, i, _, hsize m ▸ hi, rfl⟩)
      · cases e.symm.trans h
    | read m i =>
      rcases hostRead_cases m i { s with pending := rest } with ⟨_, e⟩ | e
      · cases e.symm.trans h
        exact .inl ⟨_, _, rfl⟩
      · cases e.symm.trans h
    | writeCsr n v =>
      by_cases hn : n = 0
      · subst hn
        rcases issue_cases v { s with pending := rest } with ⟨_, e⟩ | ⟨err, hm, hd, e⟩ | ⟨i, hm, hd, e⟩
        · cases e.symm.trans h
          exact .inl ⟨_, _, rfl⟩
        · cases e.symm.trans h
          exact .inr (.inr (.inr ⟨v, rest, rfl, hm, .inl ⟨err, hd, rfl⟩⟩))
        · exact .inr (.inr (.inr ⟨v, rest, rfl, hm, .inr ⟨i, hd, e.symm.trans h⟩⟩))
      · cases (if_neg hn : hostWriteCsr n v { s with pending := rest } = _).symm.trans h
        exact .inl ⟨_, _, rfl⟩
    | readCsr n =>
      cases h
      exact .inl ⟨_, _, rfl⟩
    | reset =>
      cases h
      exact .inr (.inr (.inl ⟨rest, rfl, rfl⟩))
    | bus b =>
      rcases busAccess_cases b { s with pending := rest } with ⟨m, i, v, hi, e⟩ | ⟨a, e⟩ | ⟨r, e⟩
      · cases e.symm.trans h
        exact .inr (.inl ⟨rest, m, i, v, hsize m ▸ hi, rfl⟩)
      · cases e.symm.trans h
        exact .inl ⟨_, _, rfl⟩
      · cases e.symm.trans h

/-- A command leaves UW as it is, or it is an UNPK with w above 16, which sets UW and leaves MODE. -/
theorem exec_uw {i : Instr} {s t : State} (h : exec i s = .next t) :
    t.uw = s.uw ∨ (t.uw = true ∧ t.mode = s.mode ∧ ∃ w, 16 < BitVec.toNat w ∧ (i = .unpkWc w ∨ i = .unpkNc w)) := by
  have hunpk : ∀ w, exec (.unpkWc w) s = .next t ∨ exec (.unpkNc w) s = .next t →
      t.uw = s.uw ∨ (16 < w.toNat ∧ t.uw = true ∧ t.mode = s.mode) := by
    intro w hx
    rcases exec_unpk_cases hx with rfl | ⟨_, _, rfl⟩ | ⟨hw, rfl⟩ | ⟨_, _, hu⟩
    · exact .inl rfl
    · exact .inl rfl
    · exact .inr ⟨hw, rfl, rfl⟩
    · obtain ⟨_, _, huw, _⟩ := hu.registers
      exact .inl huw
  cases i with
  | dec0 => exact .inl (exec_counting_frame h (dec0_frame s)).uw
  | dec2 y l => exact .inl (exec_counting_frame h (dec2_frame y l s)).uw
  | pacc y l m => exact .inl (exec_counting_frame h (palAcc_frame y l m s)).uw
  | unpkWc w => exact (hunpk w (.inl h)).imp_right fun ⟨hw, huw, hm⟩ => ⟨huw, hm, w, hw, .inl rfl⟩
  | unpkNc w => exact (hunpk w (.inr h)).imp_right fun ⟨hw, huw, hm⟩ => ⟨huw, hm, w, hw, .inr rfl⟩
  | dec13Wc y l m =>
    obtain ⟨_, _, huw, _⟩ := dec13Frame y l m s t (.inl h)
    exact .inl huw
  | dec13Nc y l m =>
    obtain ⟨_, _, huw, _⟩ := dec13Frame y l m s t (.inr h)
    exact .inl huw
  | wsel m => exact .inl (exec_keeps h (fun t => t.uw = s.uw) rfl fun _ => rfl)

/-- Settles O55: of all that a step can do, only reset clears UW and only the flag of an UNPK sets it. -/
theorem unsupportedWidthFlagIsSticky : Obligations.UnsupportedWidthFlagIsSticky := by
  intro s t h
  have hkept : t.uw = s.uw → (s.uw = true → (∀ rest, s.pending ≠ .reset :: rest) → t.uw = true) ∧
      (s.uw = false → t.uw = true →
        t.mode = .idle ∧ ∃ x rest w, s.pending = .writeCsr 0 x :: rest ∧ 16 < BitVec.toNat w ∧
          (decode x = .ok (.unpkWc w) ∨ decode x = .ok (.unpkNc w))) :=
    fun e => ⟨fun hs _ => e.trans hs, fun hs ht => by simp [e, hs] at ht⟩
  rcases step_next_cases h with ⟨p, a, rfl⟩ | ⟨rest, m, i, v, _, rfl⟩ | ⟨rest, hp, rfl⟩ |
    ⟨x, rest, hp, hm, ⟨e, _, rfl⟩ | ⟨i, hd, hx⟩⟩
  · exact hkept rfl
  · exact hkept (by simp)
  · exact ⟨fun _ hno => absurd hp (hno rest), nofun⟩
  · exact hkept rfl
  · rcases exec_uw hx with e | ⟨huw, hmode, w, hw, hi⟩
    · exact hkept e
    · have hword : decode x = .ok (.unpkWc w) ∨ decode x = .ok (.unpkNc w) := by
        rcases hi with rfl | rfl
        · exact .inl hd
        · exact .inr hd
      exact ⟨fun _ _ => huw, fun _ _ => ⟨hmode.trans hm, x, rest, w, hp, hw, hword⟩⟩

end Sys2Proof.Machine
end

section
/-! SUPPORT. The invariant holds after reset and every step keeps it (R10 to R24, R140). -/

namespace Sys2Proof.Machine

/-- The fault record speaks of MODE, CAUSE, FINFO, FVAL and HIST_CELLS alone. -/
theorem faultRecordOk_congr {s t : State} (h : FaultRecordOk s) (hmode : t.mode = s.mode) (hcause : t.cause = s.cause)
    (hfinfo : t.finfo = s.finfo) (hfval : t.fval = s.fval) (hcells : t.histCells = s.histCells) : FaultRecordOk t where
  cause_iff := by rw [hmode, hcause]; exact h.cause_iff
  idle_clear := by rw [hmode, hfinfo, hfval]; exact h.idle_clear
  decode_finfo := by rw [hcause, hfinfo]; exact h.decode_finfo
  pal_fval := by rw [hcause, hfinfo, hfval]; exact h.pal_fval
  hist_fval := by rw [hcause, hfval, hcells]; exact h.hist_fval

/-- The registers of a block after reset make a consistent fault record. -/
theorem faultRecordOk_clear {s : State} (hmode : s.mode = .idle) (hcause : s.cause = .none) (hfinfo : s.finfo = 0)
    (hfval : s.fval = 0) : FaultRecordOk s where
  cause_iff := by simp [hmode, hcause]
  idle_clear := fun _ => ⟨hfinfo, hfval⟩
  decode_finfo := fun _ => hfinfo
  pal_fval := by simp [hcause]
  hist_fval := by simp [hcause]

/-- A change of memory contents keeps the invariant if it keeps the canonical form. -/
theorem Inv.of_sameRegisters {s t : State} (h : Inv s) (hr : SameRegisters s t) (hcells : t.histCells = s.histCells)
    (hm : MemoriesOk t) : Inv t where
  memories := hm
  faultRecord := faultRecordOk_congr h.faultRecord hr.mode hr.cause hr.finfo hr.fval hcells
  wreg_range := hr.wreg ▸ h.wreg_range
  outcnt_values := hr.outcnt ▸ h.outcnt_values
  bank_nonempty := hcells ▸ h.bank_nonempty

theorem Inv.memWrite {s : State} (h : Inv s) (m : MemId) {i : Nat} (v : BitVec m.width) (hi : i < s.sizeOf m) :
    Inv (memWrite m i v s) :=
  h.of_sameRegisters ((SameRegisters.refl s).memWrite m i v) (memWrite_histCells m i v s)
    (memoriesOk_memWrite m i v s hi h.memories)

theorem Inv.raise {s : State} (h : Inv s) {cause : Cause} {info : BitVec 15} {val : Word}
    (hrecord : FaultRecordOk (raise cause info val s)) : Inv (raise cause info val s) where
  memories := memoriesOk_congr (raise_cells cause info val s) rfl h.memories
  faultRecord := hrecord
  wreg_range := h.wreg_range
  outcnt_values := h.outcnt_values
  bank_nonempty := h.bank_nonempty

/-- The host port's own fields are not in the invariant. -/
theorem Inv.hostFields {s : State} (h : Inv s) (p : List HostAction) (a : Option HostAnswer) :
    Inv { s with pending := p, answer := a } :=
  h.of_sameRegisters ⟨rfl, rfl, rfl, rfl, rfl, rfl, rfl⟩ rfl
    (memoriesOk_congr (fun m => by cases m <;> rfl) rfl h.memories)

theorem Inv.takeReset {s : State} (h : Inv s) : Inv (takeReset s) where
  memories := memoriesOk_congr (takeReset_cells s) rfl h.memories
  faultRecord := faultRecordOk_clear rfl rfl rfl rfl
  wreg_range := .inl rfl
  outcnt_values := .inl rfl
  bank_nonempty := h.bank_nonempty

theorem Inv.flagUnsupportedWidth {s : State} (h : Inv s) : Inv (flagUnsupportedWidth s) where
  memories := memoriesOk_congr (flagUnsupportedWidth_cells s) rfl h.memories
  faultRecord := faultRecordOk_congr h.faultRecord rfl rfl rfl rfl rfl
  wreg_range := h.wreg_range
  outcnt_values := .inl rfl
  bank_nonempty := h.bank_nonempty

theorem widthSel_range (maxpal : BitVec 16) : 4 ≤ widthSel maxpal ∧ widthSel maxpal ≤ 16 := by
  obtain ⟨hmin, hmax, _⟩ := widthSearch_spec maxpal.toNat 12 Config.wMin
  exact ⟨hmin, hmax⟩

theorem Inv.selectWidth {s : State} (h : Inv s) (maxpal : BitVec 16) : Inv (setWreg (widthSel maxpal) s) where
  memories := memoriesOk_congr (setWreg_cells _ s) rfl h.memories
  faultRecord := faultRecordOk_congr h.faultRecord rfl rfl rfl rfl rfl
  wreg_range := by
    have hw := widthSel_range maxpal
    rw [setWreg_wreg, BitVec.toNat_ofNat]
    omega
  outcnt_values := h.outcnt_values
  bank_nonempty := h.bank_nonempty

/-- Writing entries 0 to 4095 of IDX keeps every memory in canonical form. -/
theorem EntriesWritten.memoriesOk {s : State} {mem : Memory 16} (hmem : EntriesWritten s.idx mem) (h : MemoriesOk s) :
    MemoriesOk (s.setCells .idx mem) := by
  induction hmem with
  | none => exact h
  | @write mem' _ n hn v ih => exact memoriesOk_memWrite .idx n v (s.setCells .idx mem') hn ih

theorem Inv.unpacked {s t : State} (h : Inv s) (hu : Unpacked s t) : Inv t := by
  obtain ⟨mem, hmem, rfl⟩ := hu
  exact
    { memories := memoriesOk_congr (setOutcntFull_cells _) rfl (hmem.memoriesOk h.memories)
      faultRecord := faultRecordOk_congr h.faultRecord rfl rfl rfl rfl rfl
      wreg_range := h.wreg_range
      outcnt_values := .inr rfl
      bank_nonempty := h.bank_nonempty }

/-- A loop of counting cells keeps the invariant: a fault leaves a consistent record, a counter lies in the bank. -/
theorem Inv.forCells {cell : Nat → State → State} {addr : Nat → State → Nat} {n : Nat} {s : State} (h : Inv s)
    (hcell : ∀ c < n, ∀ t, CountsOrFaults (addr c t) t (cell c t)) : Inv (forCells cell n 0 s) := by
  refine forCells_keeps cell Inv n 0 s h fun c t _ hc ht => ?_
  rcases hcell c (by omega) t with ⟨_, _, _, hrecord, e⟩ | ⟨ha, e⟩ <;> rw [e]
  · exact ht.raise hrecord
  · exact ht.memWrite .hist _ ha

theorem Inv.palAcc {s : State} (h : Inv s) (y : BitVec 8) (l : BitVec 24) (m : BitVec 16) : Inv (palAcc y l m s) :=
  h.forCells fun _ hc => paccCell_countsOrFaults y l m hc

/-- Every command keeps the invariant. -/
theorem inv_exec {i : Instr} {s t : State} (h : Inv s) (hx : exec i s = .next t) : Inv t := by
  have hunpk : ∀ w, exec (.unpkWc w) s = .next t ∨ exec (.unpkNc w) s = .next t → Inv t := by
    intro w hw
    rcases exec_unpk_cases hw with rfl | ⟨_, x, rfl⟩ | ⟨_, rfl⟩ | ⟨_, _, hu⟩
    · exact h
    · exact h.raise (faultRecordOk_raise_decode .widthBelowMin x s)
    · exact h.flagUnsupportedWidth
    · exact h.unpacked hu
  have hdec13 : ∀ y l m, exec (.dec13Wc y l m) s = .next t ∨ exec (.dec13Nc y l m) s = .next t → Inv t := by
    intro y l m hd
    rcases exec_dec13_cases hd with ⟨_, rfl⟩ | ⟨u, hu, rfl⟩
    · exact h
    · exact ((h.selectWidth m).unpacked hu).palAcc y l m
  cases i with
  | dec0 => exact exec_keeps hx Inv h fun _ => h.forCells fun c _ => dec0Cell_countsOrFaults c
  | dec2 y l => exact exec_keeps hx Inv h fun _ => h.forCells fun _ hc => dec2Cell_countsOrFaults y l hc
  | pacc y l m => exact exec_keeps hx Inv h fun _ => h.palAcc y l m
  | unpkWc w => exact hunpk w (.inl hx)
  | unpkNc w => exact hunpk w (.inr hx)
  | dec13Wc y l m => exact hdec13 y l m (.inl hx)
  | dec13Nc y l m => exact hdec13 y l m (.inr hx)
  | wsel m => exact exec_keeps hx Inv h fun _ => h.selectWidth m

/-- Settles O57: each of the things a step can do keeps the invariant. -/
theorem stepKeepsTheInvariant : Obligations.StepKeepsTheInvariant := by
  intro s t h hstep
  have hrest : ∀ rest, Inv { s with pending := rest } := fun rest => h.hostFields rest s.answer
  rcases step_next_cases hstep with ⟨p, a, rfl⟩ | ⟨rest, m, i, v, hi, rfl⟩ | ⟨rest, _, rfl⟩ |
    ⟨x, rest, _, _, ⟨e, _, rfl⟩ | ⟨i, _, hx⟩⟩
  · exact h.hostFields p a
  · exact (hrest rest).memWrite m v (by cases m <;> exact hi)
  · exact (hrest rest).takeReset
  · exact (hrest rest).raise (faultRecordOk_raise_decode e x _)
  · exact inv_exec (hrest rest) hx

theorem histCells_reset_pos : 1 ≤ State.reset.histCells := Nat.succ_pos _

/-- Settles O58: the memories list nothing and the registers are 0. -/
theorem invariantAtReset : Obligations.InvariantAtReset where
  memories := memoriesOk_reset
  faultRecord := faultRecordOk_clear rfl rfl rfl rfl
  wreg_range := .inl rfl
  outcnt_values := .inl rfl
  bank_nonempty := histCells_reset_pos

end Sys2Proof.Machine
end

section
/-! SUPPORT. The state after reset (R24, R160) and the registers as the host reads them (R19). -/

namespace Sys2Proof.Machine

/-- Settles O13: each field as `State.reset` gives it. -/
theorem stateAfterReset : Obligations.StateAfterReset :=
  ⟨rfl, rfl, rfl, rfl, rfl, rfl, rfl, histCells_reset_pos, fun m => by cases m <;> rfl, rfl⟩

theorem Mode.bit_toNat (m : Mode) : m.bit.toNat = if m = .fault then 1 else 0 := by cases m <;> rfl

theorem toNat_append_eq_add {n m : Nat} (x : BitVec n) (y : BitVec m) :
    (x ++ y).toNat = x.toNat * 2 ^ m + y.toNat := by
  rw [BitVec.toNat_append, ← Nat.shiftLeft_add_eq_or_of_lt y.isLt, Nat.shiftLeft_eq]

/-- STATUS as a sum: MODE at weight 1, UW at weight 2, CAUSE at weight 16. -/
theorem statusWord_toNat (s : State) :
    (statusWord s).toNat = s.mode.bit.toNat + 2 * s.uw.toNat + 16 * s.cause.code.toNat := by
  simp only [statusWord, toNat_append_eq_add, BitVec.toNat_ofBool, BitVec.ofNat_eq_ofNat, BitVec.toNat_ofNat]
  omega

/-- Settles O16: STATUS as a sum of its fields, the other registers as they stand, and a step by its action. -/
theorem registerNumbers : Obligations.RegisterNumbers := by
  refine ⟨fun s => ⟨rfl, ?_, ?_, ?_, rfl, fun n hn => ?_, ?_⟩, fun s n rest hp => ?_, fun s n v rest hp => ?_⟩
  · exact BitVec.toNat_setWidth_of_le (by decide)
  · exact BitVec.toNat_setWidth_of_le (by decide)
  · exact BitVec.toNat_setWidth_of_le (by decide)
  · obtain ⟨k, rfl⟩ := Nat.exists_eq_add_of_le' hn
    rfl
  · rw [csrRead, statusWord_toNat, Mode.bit_toNat]
    cases s.cause <;> cases s.uw <;> rfl
  · rw [step_action s _ rest hp]
    rfl
  · rw [step_action s _ rest hp]
    exact ⟨fun hn => if_pos hn, fun hn => if_neg (by omega)⟩

end Sys2Proof.Machine
end

section
/-! SUPPORT. What the host port answers, case by case (R44, R145), and how a host lays an entry out in bytes (R32,
R35). -/

namespace Sys2Proof.Machine

/-! ### Accesses by entry -/

theorem hostWrite_inside {m : MemId} {i : Nat} {v : Word} {s : State} (hi : i < s.sizeOf m)
    (hv : v.toNat < 2 ^ m.width) : hostWrite m i v s = .next (memWrite m i (v.setWidth m.width) s) := by
  simp [hostWrite, Nat.not_le.2 hi, Nat.not_le.2 hv]

theorem hostWrite_outside {m : MemId} {i : Nat} (v : Word) {s : State} (hi : s.sizeOf m ≤ i) :
    hostWrite m i v s = .refused .hostIndexOutsideMemory := if_pos hi

theorem hostWrite_tooWide {m : MemId} {i : Nat} {v : Word} {s : State} (hi : i < s.sizeOf m)
    (hv : 2 ^ m.width ≤ v.toNat) : hostWrite m i v s = .refused .hostValueTooWide := by
  simp [hostWrite, Nat.not_le.2 hi, hv]

theorem hostRead_inside {m : MemId} {i : Nat} {s : State} (hi : i < s.sizeOf m) :
    hostRead m i s = .next { s with answer := some (.value ((memRead m i s).setWidth 64)) } := if_neg (Nat.not_le.2 hi)

theorem hostRead_outside {m : MemId} {i : Nat} {s : State} (hi : s.sizeOf m ≤ i) :
    hostRead m i s = .refused .hostIndexOutsideMemory := if_pos hi

/-- The host actions still waiting say nothing of a memory's size. -/
@[simp] theorem sizeOf_withPending (s : State) (p : List HostAction) (m : MemId) :
    State.sizeOf { s with pending := p } m = s.sizeOf m := by cases m <;> rfl

/-- The host actions still waiting say nothing of a memory's contents. -/
@[simp] theorem memRead_withPending (s : State) (p : List HostAction) (m : MemId) (i : Nat) :
    memRead m i { s with pending := p } = memRead m i s := memRead_congr m i (by cases m <;> rfl) rfl

theorem memWidth_le (m : MemId) : m.width ≤ 64 := by cases m <;> decide

/-- An entry as the 64-bit value a host reads. -/
theorem entry_setWidth_toNat {m : MemId} (v : BitVec m.width) : (v.setWidth 64).toNat = v.toNat :=
  BitVec.toNat_setWidth_of_le (memWidth_le m)

/-- A 64-bit value that fits the entry, as the host writes it. -/
theorem value_setWidth_toNat {m : MemId} {v : Word} (hv : v.toNat < 2 ^ m.width) :
    (v.setWidth m.width).toNat = v.toNat := by rw [BitVec.toNat_setWidth, Nat.mod_eq_of_lt hv]

/-- Settles O14: the write stores the value in its entry, and every other entry and register stays. -/
theorem hostWriteStoresOneEntry : Obligations.HostWriteStoresOneEntry := by
  intro s rest m i v hp hi hv
  refine ⟨memWrite m i (v.setWidth m.width) { s with pending := rest }, ?_, ?_, fun m' j hmj => ?_, ?_, ?_⟩
  · rw [step_action s _ rest hp]
    exact hostWrite_inside (by simpa using hi) hv
  · rw [memRead_memWrite_same, value_setWidth_toNat hv]
  · rw [memRead_memWrite_other _ _ _ _ _ _ hmj, memRead_withPending]
  · exact SameRegisters.memWrite (s := s) (t := { s with pending := rest }) ⟨rfl, rfl, rfl, rfl, rfl, rfl, rfl⟩ m i _
  · simp

/-- Settles O15: the answer is the entry, widened to 64 bits. -/
theorem hostReadReturnsTheEntry : Obligations.HostReadReturnsTheEntry := by
  intro s rest m i hp hi
  refine ⟨(memRead m i s).setWidth 64, entry_setWidth_toNat _, ?_⟩
  rw [step_action s _ rest hp, perform, hostRead_inside (by simpa using hi), memRead_withPending]

/-- Settles O17: the three refusals of an access by entry. -/
theorem hostAccessOutsideIsRefused : Obligations.HostAccessOutsideIsRefused := by
  intro s rest m i v
  refine ⟨fun hp hi => ?_, fun hp hi hv => ?_, fun hp hi => ?_⟩ <;> rw [step_action s _ rest hp]
  · exact hostWrite_outside v (by simpa using hi)
  · exact hostWrite_tooWide (by simpa using hi) hv
  · exact hostRead_outside (by simpa using hi)

/-! ### Accesses through byte addresses -/

@[simp] theorem length_littleEndian (n v : Nat) : (littleEndian n v).length = n := by
  induction n generalizing v with
  | zero => rfl
  | succ n ih => simp [littleEndian, ih]

/-- The bytes of a number that `n` bytes hold make that number again (R32). -/
theorem ofLittleEndian_littleEndian {n v : Nat} (hv : v < 256 ^ n) : ofLittleEndian (littleEndian n v) = v := by
  induction n generalizing v with
  | zero => exact (Nat.lt_one_iff.1 hv).symm
  | succ n ih =>
    have hhigh : v / 256 < 256 ^ n := Nat.div_lt_of_lt_mul (by rwa [pow_succ'] at hv)
    simp only [littleEndian, ofLittleEndian, ih hhigh, BitVec.toNat_ofNat]
    exact Nat.mod_add_div v 256

theorem memBytes_pos (m : MemId) : 0 < m.bytes := by cases m <;> decide

/-- The bytes of an entry hold exactly the values of its width (R21, R32). -/
theorem pow_memBytes (m : MemId) : 256 ^ m.bytes = 2 ^ m.width := by cases m <;> rfl

/-- The bytes of an entry make the entry again. -/
theorem ofLittleEndian_entry {m : MemId} (v : BitVec m.width) :
    ofLittleEndian (littleEndian m.bytes v.toNat) = v.toNat :=
  ofLittleEndian_littleEndian (pow_memBytes m ▸ v.isLt)

theorem wholeEntry_entry (m : MemId) (i : Nat) : wholeEntry m (i * m.bytes) m.bytes := ⟨rfl, Nat.mul_mod_left i m.bytes⟩

theorem not_wholeEntry {m : MemId} {byteAddr size : Nat} (h : size ≠ m.bytes ∨ ¬ m.bytes ∣ byteAddr) :
    ¬ wholeEntry m byteAddr size :=
  fun hw => h.elim (fun hs => hs hw.1) fun hd => hd (Nat.dvd_of_mod_eq_zero hw.2)

/-- A write of an entry's bytes at the entry's byte address stores the entry. -/
theorem busAccess_write_entry {m : MemId} {i : Nat} (v : BitVec m.width) {s : State} (hi : i < s.sizeOf m) :
    busAccess (.write m (i * m.bytes) (littleEndian m.bytes v.toNat)) s = .next (memWrite m i v s) := by
  have hval : BitVec.ofNat 64 (ofLittleEndian (littleEndian m.bytes v.toNat)) = v.setWidth 64 := by
    rw [ofLittleEndian_entry, BitVec.ofNat_toNat]
  have hfits : (v.setWidth 64).toNat < 2 ^ m.width := entry_setWidth_toNat v ▸ v.isLt
  rw [busAccess, length_littleEndian, if_pos (wholeEntry_entry m i), Nat.mul_div_cancel i (memBytes_pos m), hval,
    hostWrite_inside hi hfits, BitVec.setWidth_setWidth_of_le v (memWidth_le m), BitVec.setWidth_eq]

/-- A read of an entry's bytes at the entry's byte address answers them, the byte of least weight first. -/
theorem busAccess_read_entry {m : MemId} {i : Nat} {s : State} (hi : i < s.sizeOf m) :
    busAccess (.read m (i * m.bytes) m.bytes) s =
      .next { s with answer := some (.bytes (littleEndian m.bytes (memRead m i s).toNat)) } := by
  rw [busAccess, if_pos (wholeEntry_entry m i), Nat.mul_div_cancel i (memBytes_pos m), if_neg (Nat.not_le.2 hi)]

/-- Settles O18: an entry's bytes make the entry again, and an access that is no whole entry is refused. -/
theorem busAccessIsOneWholeEntry : Obligations.BusAccessIsOneWholeEntry := by
  intro s rest m byteAddr
  refine ⟨fun i v ha hi hp => ?_, fun i ha hi hp => ?_, fun bytes hp h => ?_, fun size hp h => ?_⟩
  · rw [step_action s _ rest hp, ha]
    exact busAccess_write_entry v (by simpa using hi)
  · refine ⟨_, ofLittleEndian_entry (memRead m i s), length_littleEndian _ _, ?_⟩
    rw [step_action s _ rest hp, ha, perform, busAccess_read_entry (by simpa using hi), memRead_withPending]
  · rw [step_action s _ rest hp]
    exact if_neg (not_wholeEntry h)
  · rw [step_action s _ rest hp]
    exact if_neg (not_wholeEntry h)

end Sys2Proof.Machine
end

section
/-! SUPPORT. The addresses of DEC0 and DEC2 in sums (R33, R81, R82, R83, R90, R92). -/

namespace Sys2Proof.Machine

/-! ### Nibbles and identifiers as numbers -/

theorem lo4_toNat (b : Byte) : (lo4 b).toNat = b.toNat % 16 := BitVec.extractLsb'_toNat 0 4 b

theorem hi4_toNat (b : Byte) : (hi4 b).toNat = b.toNat / 16 := by
  have hb := b.isLt
  rw [hi4, BitVec.extractLsb'_toNat, Nat.shiftRight_eq_div_pow]
  omega

theorem cellNibble_toNat (c : Nat) (b : Byte) : (cellNibble c b).toNat = nibbleValue c b := by
  unfold cellNibble nibbleValue
  split
  · exact lo4_toNat b
  · exact hi4_toNat b

theorem flatId_toNat_eq_sum (b : Byte) (m : Nibble) : (flatId b m).toNat = b.toNat * 16 + m.toNat :=
  toNat_append_eq_add b m

theorem extendedId_toNat_eq_sum (a2 a : Nibble) (b : Byte) (m : Nibble) :
    (extendedId a2 a b m).toNat = a2.toNat * 2 ^ 16 + a.toNat * 2 ^ 12 + b.toNat * 2 ^ 4 + m.toNat := by
  simp only [extendedId, toNat_append_eq_add]
  omega

/-- The parts of an extended identifier: its bits 19 to 16, 15 to 12, 11 to 4 and 3 to 0 (R92). -/
def identifierParts (x : BitVec 20) : Nibble × Nibble × Byte × Nibble :=
  (x.extractLsb' 16 4, x.extractLsb' 12 4, x.extractLsb' 4 8, x.extractLsb' 0 4)

theorem extendedId_identifierParts (x : BitVec 20) :
    extendedId (identifierParts x).1 (identifierParts x).2.1 (identifierParts x).2.2.1 (identifierParts x).2.2.2 =
      x := by
  apply BitVec.eq_of_toNat_eq
  have hx := x.isLt
  simp only [extendedId_toNat_eq_sum, identifierParts, BitVec.extractLsb'_toNat, Nat.shiftRight_eq_div_pow]
  omega

theorem identifierParts_extendedId (a2 a : Nibble) (b : Byte) (m : Nibble) :
    identifierParts (extendedId a2 a b m) = (a2, a, b, m) := by
  have ha2 := a2.isLt
  have ha := a.isLt
  have hb := b.isLt
  have hm := m.isLt
  simp only [identifierParts, Prod.mk.injEq]
  refine ⟨?_, ?_, ?_, ?_⟩ <;> apply BitVec.eq_of_toNat_eq <;>
    simp only [BitVec.extractLsb'_toNat, extendedId_toNat_eq_sum, Nat.shiftRight_eq_div_pow] <;> omega

/-! ### Addresses -/

/-- DEC0 counts cell `c` where R81 and R82 say. -/
theorem dec0Addr_eq_flatAddress (c : Nat) (s : State) : dec0Addr c s = flatAddress s c := by
  simp only [dec0Addr, flatAddress, histAddr, flatId_toNat_eq_sum, cellNibble_toNat]

/-- DEC2 counts cell `c` where R90 and R92 say. -/
theorem dec2Addr_eq_extendedAddress (ysec : BitVec 8) (idlimit : BitVec 24) (c : Nat) (s : State) :
    dec2Addr ysec idlimit c s = extendedAddress s ysec idlimit c := by
  simp only [dec2Addr, extendedAddress, histAddr, sectionLayer, extendedId_toNat_eq_sum, cellNibble_toNat]
  norm_num

/-- Settles O27: both cells of a pair read one byte of META, and each its own half of it. -/
theorem nibblePairProperty : Obligations.NibblePairProperty := by
  intro s column y b0 b1 lo hi hcolumn hy heven hlo hhi hb0 hb1 hm
  have hpair : (y + column * 128 + 1) / 2 = (y + column * 128) / 2 := by omega
  simp only [dec0Addr_eq_flatAddress, flatAddress, nibbleValue, hpair, hb0, hb1, hm]
  rw [if_pos (by omega), if_neg (by omega)]
  omega

/-- Settles O31: the identifier and the address as sums, and the parts as the inverse of the composition. -/
theorem identifierComposition : Obligations.IdentifierComposition := by
  refine ⟨fun a2n an mn blk => extendedId_toNat_eq_sum a2n an blk mn, dec2Addr_eq_extendedAddress, ?_⟩
  have hleft : Function.LeftInverse identifierParts fun p => extendedId p.1 p.2.1 p.2.2.1 p.2.2.2 :=
    fun p => identifierParts_extendedId _ _ _ _
  exact ⟨hleft.injective, Function.RightInverse.surjective extendedId_identifierParts⟩

end Sys2Proof.Machine
end

section
/-! SUPPORT. DEC0 and DEC2 count every cell (R77), or the cells before the first whose counter is outside the bank
(R142, R146). -/

namespace Sys2Proof.Machine

/-! ### A loop of increments -/

theorem faultTaken_raise (cause : Cause) (info : BitVec 15) (val : Word) (s : State) :
    FaultTaken cause info val (raise cause info val s) := ⟨rfl, rfl, rfl, rfl⟩

/-- Taking a fault leaves the counters as they are (R143). -/
theorem CountedInto.raise {addr : Nat → Nat} {n : Nat} {s t : State} (h : CountedInto addr n s t) (cause : Cause)
    (info : BitVec 15) (val : Word) : CountedInto addr n s (raise cause info val t) :=
  fun a => (memRead_raise cause info val t .hist a).trans (h a)

/-- A command that is a loop of increments, at addresses that HIST has no part in, counts all its cells if their
counters lie in the bank. -/
theorem exec_counts_every_cell {i : Instr} {cell : Nat → State → State} {addr : Nat → Nat} {n : Nat} {s : State}
    (hs : s.mode = .idle) (hrule : commandRule i s = forCells cell n 0 s)
    (hcell : ∀ c h, cell c { s with hist := h } = histInc (addr c) c { s with hist := h })
    (hin : ∀ c < n, addr c < s.histCells) :
    ∃ t, exec i s = .next t ∧ t.mode = .idle ∧ CountedInto addr n s t := by
  obtain ⟨hidle, hcounted⟩ := forCells_all_counted cell addr n s hs (fun c _ => hcell c) hin
  refine ⟨_, ?_, hidle, hcounted.counts⟩
  rw [exec_of_idle i hs, hrule]

/-- Such a command faults HIST_OOB at the first cell whose counter lies outside the bank, with the cells before it
counted. -/
theorem exec_faults_at_first_cell_outside {i : Instr} {cell : Nat → State → State} {addr : Nat → Nat} {n k : Nat}
    {s : State} (hs : s.mode = .idle) (hrule : commandRule i s = forCells cell n 0 s)
    (hcell : ∀ c h, cell c { s with hist := h } = histInc (addr c) c { s with hist := h })
    (hk : k < n) (hin : ∀ c < k, addr c < s.histCells) (hout : s.histCells ≤ addr k) :
    ∃ t, exec i s = .next t ∧ FaultTaken .histOob (BitVec.ofNat 15 k) (BitVec.ofNat 64 (addr k)) t ∧
      CountedInto addr k s t := by
  have hbad : ∀ h, cell k { s with hist := h } =
      raise .histOob (BitVec.ofNat 15 k) (BitVec.ofNat 64 (addr k)) { s with hist := h } :=
    fun h => (hcell k h).trans (histInc_outside _ _ _ hout)
  obtain ⟨t, hcounted, hloop⟩ := forCells_first_fault cell addr n k s _ _ _ hs hk (fun c _ => hcell c) hin hbad
  refine ⟨_, ?_, faultTaken_raise _ _ _ t, hcounted.counts.raise _ _ _⟩
  rw [exec_of_idle i hs, hrule, hloop]

/-! ### The cells of DEC0 and DEC2 -/

theorem sameReadsBut_withHist (s : State) (h : Memory 64) : SameReadsBut [.hist] s { s with hist := h } :=
  fun m hm i => memRead_congr m i (State.cells_setCells_other s .hist h m (by simpa using hm)) rfl

theorem dec0Cell_withHist (s : State) (c : Nat) (h : Memory 64) :
    dec0Cell c { s with hist := h } = histInc (flatAddress s c) c { s with hist := h } := by
  rw [dec0Cell, dec0Addr_congr (sameReadsBut_withHist s h), dec0Addr_eq_flatAddress]

theorem dec2Cell_withHist (s : State) (ysec : BitVec 8) (idlimit : BitVec 24) (c : Nat) (h : Memory 64) :
    dec2Cell ysec idlimit c { s with hist := h } =
      histInc (extendedAddress s ysec idlimit c) c { s with hist := h } := by
  rw [dec2Cell, dec2Addr_congr (sameReadsBut_withHist s h), dec2Addr_eq_extendedAddress]

theorem nibbleValue_lt (c : Nat) (b : Byte) : nibbleValue c b < 16 := cellNibble_toNat c b ▸ BitVec.isLt _

/-- 128 layers of 4096 counters hold every counter of DEC0 (R82). -/
theorem flatAddress_lt (s : State) (c : Nat) : flatAddress s c < 524288 := by
  have hlayer : c % 128 < 128 := Nat.mod_lt c (by decide)
  have hbyte : (memRead .blk c s).toNat < 256 := (memRead .blk c s).isLt
  have hnibble := nibbleValue_lt c (memRead .metadata (c / 2) s)
  unfold flatAddress
  omega

/-- Settles O24: 524288 counters hold every address of DEC0. -/
theorem dec0CountsEveryCell : Obligations.Dec0CountsEveryCell := by
  intro s hs hcells
  exact exec_counts_every_cell hs rfl (dec0Cell_withHist s) fun c _ => (flatAddress_lt s c).trans_le hcells

/-- Settles O25: DEC0 is a loop of increments. -/
theorem dec0FaultsAtFirstCellOutside : Obligations.Dec0FaultsAtFirstCellOutside := by
  intro s k hs hk hin hout
  exact exec_faults_at_first_cell_outside hs rfl (dec0Cell_withHist s) hk hin hout

/-- Settles O28: DEC2 is a loop of increments. -/
theorem dec2CountsEveryCell : Obligations.Dec2CountsEveryCell := by
  intro s ysec idlimit hs hin
  exact exec_counts_every_cell hs rfl (dec2Cell_withHist s ysec idlimit) hin

/-- Settles O29: DEC2 is a loop of increments. -/
theorem dec2FaultsAtFirstCellOutside : Obligations.Dec2FaultsAtFirstCellOutside := by
  intro s ysec idlimit k hs hk hin hout
  exact exec_faults_at_first_cell_outside hs rfl (dec2Cell_withHist s ysec idlimit) hk hin hout

end Sys2Proof.Machine
end

section
/-! SUPPORT. The command word as a number and as its fields, which determine each other (R51). -/

namespace Sys2Proof.Machine

theorem wordOf_toNat (f : Fields) :
    (wordOf f).toNat = f.op.toNat * 2 ^ 60 + f.cm.toNat * 2 ^ 59 + f.w.toNat * 2 ^ 54 + f.rsv.toNat * 2 ^ 48 +
      f.ysec.toNat * 2 ^ 40 + f.maxpal.toNat * 2 ^ 24 + f.idlimit.toNat := by
  simp only [wordOf, toNat_append_eq_add]
  omega

theorem fieldsOf_wordOf (f : Fields) : fieldsOf (wordOf f) = f := by
  have hcm := f.cm.isLt
  have hw := f.w.isLt
  have hrsv := f.rsv.isLt
  have hysec := f.ysec.isLt
  have hmaxpal := f.maxpal.isLt
  have hidlimit := f.idlimit.isLt
  have hfields := fieldsOf_toNat (wordOf f)
  rw [wordOf_toNat] at hfields
  obtain ⟨op_eq, cm_eq, w_eq, rsv_eq, ysec_eq, maxpal_eq, idlimit_eq⟩ := hfields
  refine Fields.eq_of_toNat (op_eq.trans ?_) (cm_eq.trans ?_) (w_eq.trans ?_) (rsv_eq.trans ?_) (ysec_eq.trans ?_)
    (maxpal_eq.trans ?_) (idlimit_eq.trans ?_) <;>
    clear op_eq cm_eq w_eq rsv_eq ysec_eq maxpal_eq idlimit_eq <;> omega

theorem wordOf_fieldsOf (x : Word) : wordOf (fieldsOf x) = x := by
  obtain ⟨hop, hcm, hw, hrsv, hysec, hmaxpal, hidlimit⟩ := fieldsOf_toNat x
  apply BitVec.eq_of_toNat_eq
  rw [wordOf_toNat]
  omega

theorem eq_wordOf_iff (x : Word) (f : Fields) : x = wordOf f ↔ fieldsOf x = f :=
  ⟨fun h => h ▸ fieldsOf_wordOf f, fun h => h ▸ (wordOf_fieldsOf x).symm⟩

/-- Settles O3: the fields do not overlap, so their concatenation is their sum. -/
theorem commandWordFormula : Obligations.CommandWordFormula :=
  fun f => ⟨wordOf_toNat f, fieldsOf_wordOf f⟩

end Sys2Proof.Machine
end

section
/-! SUPPORT. What decode can answer: the tests of R61 in their order, each a predicate of the fields, and which word each
answer is given to. -/

namespace Sys2Proof.Machine

/-! ### The three tests of R61 -/

/-- The first test: the opcode is one of the table's (R56 case a). -/
def OpLegal (f : Fields) : Prop := 1 ≤ f.op.toNat ∧ f.op.toNat ≤ 6

/-- The second test: every field that R55 marks 0 for the op is 0 (R56 case b). -/
def UnusedFieldsZero (f : Fields) : Prop :=
  (f.op.toNat ≠ 3 → f.op.toNat ≠ 4 → f.cm = 0) ∧ (f.op.toNat ≠ 4 → f.w = 0) ∧ f.rsv = 0 ∧
    (f.op.toNat = 1 ∨ f.op.toNat = 4 ∨ f.op.toNat = 5 → f.ysec = 0) ∧
    (f.op.toNat = 1 ∨ f.op.toNat = 2 ∨ f.op.toNat = 4 → f.maxpal = 0) ∧
    (f.op.toNat = 1 ∨ f.op.toNat = 4 ∨ f.op.toNat = 5 → f.idlimit = 0)

/-- What the third test refuses: an UNPK with w of 0 to 3 (R57). -/
def BelowFloor (f : Fields) : Prop := f.op.toNat = 4 ∧ f.w.toNat < 4

/-- The answer R61 gives for the fields of a word: the first test that fails, or the command they are the fields of. -/
inductive DecodeVerdict (f : Fields) : Except DecodeError Instr → Prop
  | illegalOpcode : ¬ OpLegal f → DecodeVerdict f (.error .illegalOpcode)
  | reservedField : OpLegal f → ¬ UnusedFieldsZero f → DecodeVerdict f (.error .reservedField)
  | widthBelowMin : OpLegal f → UnusedFieldsZero f → BelowFloor f → DecodeVerdict f (.error .widthBelowMin)
  | command (i : Instr) :
      OpLegal f → UnusedFieldsZero f → ¬ BelowFloor f → f = fieldsFor i → DecodeVerdict f (.ok i)

theorem verdict_requireZero {f : Fields} {b : Bool} {r : Except DecodeError Instr} (hop : OpLegal f)
    (hb : b = true ↔ UnusedFieldsZero f) (hr : UnusedFieldsZero f → DecodeVerdict f r) :
    DecodeVerdict f (requireZero b r) := by
  cases b with
  | true => exact hr (hb.1 rfl)
  | false => exact .reservedField hop fun hz => Bool.false_ne_true (hb.2 hz)

/-- An op without a width floor. -/
theorem verdict_requireZero_ok {f : Fields} {b : Bool} {i : Instr} (hop : OpLegal f) (hne : f.op.toNat ≠ 4)
    (hb : b = true ↔ UnusedFieldsZero f) (hi : UnusedFieldsZero f → f = fieldsFor i) :
    DecodeVerdict f (requireZero b (.ok i)) :=
  verdict_requireZero hop hb fun hz => .command i hop hz (fun h => hne h.1) (hi hz)

theorem verdict_requireWidth {f : Fields} {i : Instr} (hop : f.op.toNat = 4) (hz : UnusedFieldsZero f)
    (hi : f = fieldsFor i) : DecodeVerdict f (requireWidth f.w i) := by
  have hlegal : OpLegal f := by simp [OpLegal, hop]
  unfold requireWidth
  split
  next hw => exact .widthBelowMin hlegal hz ⟨hop, hw⟩
  next hw => exact .command i hlegal hz (fun h => hw h.2) hi

/-- Decode answers as R61 says, op by op; cm selects one of the two commands of op 3 and 4 (R53). -/
theorem decode_verdict (x : Word) : DecodeVerdict (fieldsOf x) (decode x) := by
  unfold decode
  obtain ⟨op, cm, w, rsv, ysec, maxpal, idlimit⟩ := fieldsOf x
  dsimp only
  split
  case h_1 hop | h_2 hop | h_5 hop | h_6 hop =>
    obtain ⟨-, rfl⟩ := BitVec.toNat_eq_nat.1 hop
    exact verdict_requireZero_ok (by simp [OpLegal]) (by simp) (by simp [UnusedFieldsZero, and_assoc])
      fun hz => by simpa [UnusedFieldsZero, fieldsFor] using hz
  case h_3 hop =>
    obtain ⟨-, rfl⟩ := BitVec.toNat_eq_nat.1 hop
    refine verdict_requireZero_ok (by simp [OpLegal]) (by simp) (by simp [UnusedFieldsZero]) fun hz => ?_
    rcases BitVec.eq_zero_or_eq_one cm with rfl | rfl <;> simpa [UnusedFieldsZero, fieldsFor] using hz
  case h_4 hop =>
    obtain ⟨-, rfl⟩ := BitVec.toNat_eq_nat.1 hop
    refine verdict_requireZero (by simp [OpLegal]) (by simp [UnusedFieldsZero, and_assoc]) fun hz => ?_
    refine verdict_requireWidth rfl hz ?_
    rcases BitVec.eq_zero_or_eq_one cm with rfl | rfl <;> simpa [UnusedFieldsZero, fieldsFor] using hz
  case h_7 h1 h2 h3 h4 h5 h6 =>
    refine .illegalOpcode fun ⟨hlo, hhi⟩ => ?_
    simp only [imp_false] at *
    omega

/-! ### Which words get which answer -/

theorem decode_illegalOpcode_iff (x : Word) : decode x = .error .illegalOpcode ↔ ¬ OpLegal (fieldsOf x) := by
  have h := decode_verdict x
  generalize decode x = r at h ⊢
  cases h <;> simp_all

theorem decode_reservedField_iff (x : Word) :
    decode x = .error .reservedField ↔ OpLegal (fieldsOf x) ∧ ¬ UnusedFieldsZero (fieldsOf x) := by
  have h := decode_verdict x
  generalize decode x = r at h ⊢
  cases h <;> simp_all

theorem decode_widthBelowMin_iff (x : Word) :
    decode x = .error .widthBelowMin ↔ UnusedFieldsZero (fieldsOf x) ∧ BelowFloor (fieldsOf x) := by
  have h := decode_verdict x
  have hlegal : BelowFloor (fieldsOf x) → OpLegal (fieldsOf x) := fun h => by simp [OpLegal, h.1]
  generalize decode x = r at h ⊢
  cases h <;> simp_all

theorem decode_ok_fields {x : Word} {i : Instr} (h : decode x = .ok i) :
    fieldsOf x = fieldsFor i ∧ UnusedFieldsZero (fieldsOf x) ∧ ¬ BelowFloor (fieldsOf x) := by
  have hv := decode_verdict x
  rw [h] at hv
  cases hv with
  | command _ _ hz hw hi => exact ⟨hi, hz, hw⟩

/-! ### The tests as numbers -/

theorem opLegal_fieldsOf_iff (x : Word) : OpLegal (fieldsOf x) ↔ 1 ≤ x.toNat / 2 ^ 60 ∧ x.toNat / 2 ^ 60 ≤ 6 := by
  rw [OpLegal, (fieldsOf_toNat x).1]

theorem unusedFieldsZero_fieldsOf_iff {x : Word} {op : Nat} (hop : x.toNat / 2 ^ 60 = op) :
    UnusedFieldsZero (fieldsOf x) ↔
      (op ≠ 3 → op ≠ 4 → x.toNat / 2 ^ 59 % 2 = 0) ∧ (op ≠ 4 → x.toNat / 2 ^ 54 % 32 = 0) ∧
        x.toNat / 2 ^ 48 % 64 = 0 ∧ (op = 1 ∨ op = 4 ∨ op = 5 → x.toNat / 2 ^ 40 % 256 = 0) ∧
        (op = 1 ∨ op = 2 ∨ op = 4 → x.toNat / 2 ^ 24 % 65536 = 0) ∧
        (op = 1 ∨ op = 4 ∨ op = 5 → x.toNat % 2 ^ 24 = 0) := by
  obtain ⟨op_eq, hcm, hw, hrsv, hysec, hmaxpal, hidlimit⟩ := fieldsOf_toNat x
  simp only [UnusedFieldsZero, ← BitVec.toNat_inj, op_eq, hop, hcm, hw, hrsv, hysec, hmaxpal, hidlimit,
    BitVec.ofNat_eq_ofNat, BitVec.toNat_ofNat, Nat.zero_mod]

theorem belowFloor_fieldsOf_iff (x : Word) :
    BelowFloor (fieldsOf x) ↔ x.toNat / 2 ^ 60 = 4 ∧ x.toNat / 2 ^ 54 % 32 < 4 := by
  obtain ⟨hop, -, hw, -⟩ := fieldsOf_toNat x
  rw [BelowFloor, hop, hw]

/-- Settles O5: the first test, as a number. -/
theorem illegalOpcodeExactly : Obligations.IllegalOpcodeExactly := by
  intro x
  rw [decode_illegalOpcode_iff, opLegal_fieldsOf_iff]
  omega

/-- Settles O6: the second test, as numbers; among the legal ops the zero entries of R55 are those listed. -/
theorem reservedFieldExactly : Obligations.ReservedFieldExactly := by
  intro x op
  rw [decode_reservedField_iff, opLegal_fieldsOf_iff, unusedFieldsZero_fieldsOf_iff rfl]
  exact and_congr_right fun hop => by grind

/-- Settles O7: for op 4 the fields that must be 0 make up the 54 bits below w. -/
theorem widthFloorExactly : Obligations.WidthFloorExactly := by
  intro x
  rw [decode_widthBelowMin_iff, unusedFieldsZero_fieldsOf_iff rfl, belowFloor_fieldsOf_iff]
  omega

/-! ### Decode and encode -/

/-- Settles O1: the fields of a command's word are those it was encoded with, and on them decode passes every test. -/
theorem decodeOfEncode : Obligations.DecodeOfEncode := by
  intro i hi
  have hfields : fieldsOf (encode i) = fieldsFor i := fieldsOf_wordOf (fieldsFor i)
  cases i with
  | unpkWc w | unpkNc w =>
    have hw : ¬ w.toNat < 4 := not_lt.2 (of_decide_eq_true hi)
    simp [decode, hfields, fieldsFor, requireZero, requireWidth, hw]
  | _ => simp [decode, hfields, fieldsFor, requireZero]

theorem wellFormed_of_not_belowFloor {i : Instr} (h : ¬ BelowFloor (fieldsFor i)) : i.wellFormed = true := by
  cases i with
  | unpkWc w | unpkNc w => exact decide_eq_true (not_lt.1 fun hw => h ⟨rfl, hw⟩)
  | _ => rfl

/-- Settles O2: a word that decodes has the fields of its command, and the word is determined by them. -/
theorem encodeOfDecode : Obligations.EncodeOfDecode := by
  intro x i h
  obtain ⟨hfields, _, hfloor⟩ := decode_ok_fields h
  exact ⟨((eq_wordOf_iff x _).2 hfields).symm, wellFormed_of_not_belowFloor (hfields ▸ hfloor)⟩

/-- Settles O8, by evaluation of decode on the spec's own words. -/
theorem workedEncodings : Obligations.WorkedEncodings := by
  unfold Obligations.WorkedEncodings
  decide

end Sys2Proof.Machine
end

section
/-! SUPPORT. The match and mask of a row of the opcode table, field by field (R54). -/

namespace Sys2Proof.Machine

/-- The mask of one field: all of its bits if the row fixes it, none of them if it is an operand. -/
def onesIf {n : Nat} (p : Prop) [Decidable p] : BitVec n := if p then BitVec.allOnes n else 0

theorem and_onesIf_eq_zero_iff {n : Nat} (v : BitVec n) (p : Prop) [Decidable p] :
    v &&& onesIf p = 0 ↔ (p → v = 0) := by
  by_cases hp : p <;> simp [onesIf, hp]

/-- The mask of the rows of an op, in fields: op, cm, rsv and the fields R55 marks 0 for that op. -/
def maskFields (op : Nat) : Fields where
  op := BitVec.allOnes 4
  cm := BitVec.allOnes 1
  w := onesIf (op ≠ 4)
  rsv := BitVec.allOnes 6
  ysec := onesIf (op = 1 ∨ op = 4 ∨ op = 5)
  maxpal := onesIf (op = 1 ∨ op = 2 ∨ op = 4)
  idlimit := onesIf (op = 1 ∨ op = 4 ∨ op = 5)

/-- A command's row depends on its op and cm alone. -/
theorem matchMask_eq_wordOf (i : Instr) :
    matchMask i =
      (wordOf ⟨(fieldsFor i).op, (fieldsFor i).cm, 0, 0, 0, 0, 0⟩, wordOf (maskFields (fieldsFor i).op.toNat)) := by
  cases i <;> simp only [matchMask, fieldsFor] <;> decide

theorem fieldsOf_and (x y : Word) :
    fieldsOf (x &&& y) =
      ⟨(fieldsOf x).op &&& (fieldsOf y).op, (fieldsOf x).cm &&& (fieldsOf y).cm, (fieldsOf x).w &&& (fieldsOf y).w,
        (fieldsOf x).rsv &&& (fieldsOf y).rsv, (fieldsOf x).ysec &&& (fieldsOf y).ysec,
        (fieldsOf x).maxpal &&& (fieldsOf y).maxpal, (fieldsOf x).idlimit &&& (fieldsOf y).idlimit⟩ := by
  simp only [fieldsOf, BitVec.extractLsb'_and]

theorem opLegal_fieldsFor (i : Instr) : OpLegal (fieldsFor i) := by cases i <;> simp [OpLegal, fieldsFor]

/-- Only op 3 and 4 have a carry convention (R53). -/
theorem fieldsFor_cm_eq_zero (i : Instr) (h3 : (fieldsFor i).op.toNat ≠ 3) (h4 : (fieldsFor i).op.toNat ≠ 4) :
    (fieldsFor i).cm = 0 := by
  cases i with
  | dec13Nc => exact absurd rfl h3
  | unpkNc => exact absurd rfl h4
  | _ => rfl

/-- A word meets a row exactly if it has the row's op and cm, and 0 in every field unused there (R54, R55). -/
theorem and_mask_eq_match_iff (x : Word) (i : Instr) :
    x &&& (matchMask i).2 = (matchMask i).1 ↔
      (fieldsOf x).op = (fieldsFor i).op ∧ (fieldsOf x).cm = (fieldsFor i).cm ∧ UnusedFieldsZero (fieldsOf x) := by
  rw [matchMask_eq_wordOf, eq_wordOf_iff, fieldsOf_and, fieldsOf_wordOf]
  simp only [maskFields, Fields.mk.injEq, and_onesIf_eq_zero_iff, BitVec.and_allOnes]
  refine and_congr_right fun hop => and_congr_right fun hcm => ?_
  have hzero := fieldsFor_cm_eq_zero i
  rw [← hop, ← hcm] at hzero
  rw [← hop, UnusedFieldsZero]
  exact (and_iff_right hzero).symm

/-- Settles O4: a word that meets a row passes the first two tests of decode, and a word that passes them has the row
of its op and cm. -/
theorem decodeMeetsMatchAndMask : Obligations.DecodeMeetsMatchAndMask := by
  refine ⟨fun x i h => ?_, fun x i h => ?_⟩
  · obtain ⟨hfields, hz, _⟩ := decode_ok_fields h
    exact (and_mask_eq_match_iff x i).2 ⟨congrArg Fields.op hfields, congrArg Fields.cm hfields, hz⟩
  · obtain ⟨hop, hcm, hz⟩ := (and_mask_eq_match_iff x i).1 h
    cases hd : decode x with
    | ok j =>
      obtain ⟨hfields, -, -⟩ := decode_ok_fields hd
      refine .inl ⟨j, rfl, ?_⟩
      rw [matchMask_eq_wordOf j, matchMask_eq_wordOf i, ← hfields, hop, hcm]
    | error e =>
      cases e with
      | illegalOpcode =>
        have hlegal : OpLegal (fieldsOf x) := by simpa only [OpLegal, hop] using opLegal_fieldsFor i
        exact absurd hlegal ((decode_illegalOpcode_iff x).1 hd)
      | reservedField => exact absurd hz ((decode_reservedField_iff x).1 hd).2
      | widthBelowMin =>
        obtain ⟨-, hfour, -⟩ := (decode_widthBelowMin_iff x).1 hd
        refine .inr ⟨rfl, ?_⟩
        rw [hop] at hfour
        cases i with
        | unpkWc w => exact .inl ⟨w, rfl⟩
        | unpkNc w => exact .inr ⟨w, rfl⟩
        | _ => simp [fieldsFor] at hfour

end Sys2Proof.Machine
end

section
/-! SUPPORT. A command word on its way through a step: executed as it decodes, or refused by its fault (R56, R57, R61). -/

namespace Sys2Proof.Machine

theorem step_issues {s : State} {x : Word} {rest : List HostAction} (hp : s.pending = .writeCsr 0 x :: rest) :
    step s = issue x { s with pending := rest } := step_action s _ rest hp

/-- Settles O9: the step issues the word, and in MODE = 0 an issued word that decodes is executed. -/
theorem stepRunsTheDecodedCommand : Obligations.StepRunsTheDecodedCommand := by
  intro s x rest i hp hs hd
  simp [step_issues hp, issue, hs, hd]

/-- Settles O10: the step issues the word, and in MODE = 0 an issued word that decode rejects raises its fault. -/
theorem rejectedWordTakesFault : Obligations.RejectedWordTakesFault := by
  intro s x rest e hp hs hd
  have hraise : step s = .next (raise (causeOf e) 0 x { s with pending := rest }) := by
    simp [step_issues hp, issue, hs, hd]
  rw [hraise]
  cases e <;> rfl

theorem encode_unpk (w : BitVec 5) :
    encode (.unpkWc w) = 0x4000000000000000 + w.setWidth 64 <<< 54 ∧
      encode (.unpkNc w) = 0x4800000000000000 + w.setWidth 64 <<< 54 := by
  revert w
  decide

theorem unpkRule_below_floor (i : Instr) {w : BitVec 5} (unpack : Nat → State → State) (s : State)
    (hw : w.toNat < 4) : unpkRule i w unpack s = raise .widthBelowMin 0 (encode i) s := if_pos hw

/-- Settles O35: below the floor the rule of an UNPK raises the fault with the command's own word. -/
theorem unpkBelowFourTakesFault : Obligations.UnpkBelowFourTakesFault := by
  intro s w hs hw
  obtain ⟨hwc, hnc⟩ := encode_unpk w
  rw [exec_of_idle _ hs, exec_of_idle _ hs, commandRule, commandRule, unpkRule_below_floor _ _ s hw,
    unpkRule_below_floor _ _ s hw, hwc, hnc]
  exact ⟨rfl, rfl⟩

end Sys2Proof.Machine
end

section
/-! SUPPORT. One increment of the bank (R72), the address it goes to (R71, R73), and the counts of a PACC (R77, R123). -/

namespace Sys2Proof.Machine

/-- Settles O20, by the two things an increment can do. -/
theorem histogramIncrement : Obligations.HistogramIncrement := by
  intro a c s
  refine ⟨histInc_outside a c s, fun ha => ?_⟩
  rw [histInc_inside a c s ha]
  refine ⟨?_, fun b hb => memRead_memWrite_other _ _ _ _ _ s (.inr hb),
    fun m hm i => memRead_memWrite_other _ _ _ _ _ s (.inl (by simpa using hm)), .memWrite (.refl s) _ _ _,
    .memWrite (.refl s) _ _ _⟩
  rw [memRead_memWrite_same]
  exact BitVec.toNat_add _ _

/-- Settles O21. -/
theorem addressFitsThirtySixBits : Obligations.AddressFitsThirtySixBits :=
  fun _ _ _ => ⟨rfl, histAddr_lt⟩

/-- Settles O22: the quotient of the identifier by the row length moves into the layer. -/
theorem longIdentifierFallsInLaterRow : Obligations.LongIdentifierFallsInLaterRow := by
  intro layer idlimit id
  constructor
  · calc layer * idlimit + id = layer * idlimit + (id / idlimit * idlimit + id % idlimit) := by rw [Nat.div_add_mod']
      _ = (layer + id / idlimit) * idlimit + id % idlimit := by rw [Nat.add_mul, Nat.add_assoc]
  · simp [histAddr]

/-- A cell of PACC whose index is in the palette is counted where R123 says, whatever stands in HIST. -/
theorem paccCell_withHist (s : State) (ysec : BitVec 8) (idlimit : BitVec 24) (maxpal : BitVec 16) (c : Nat)
    (h : Memory 64) (hindex : storedIndex s c ≤ maxpal.toNat) :
    paccCell ysec idlimit maxpal c { s with hist := h } =
      histInc (paletteAddress s ysec idlimit (storedIndex s) c) c { s with hist := h } := by
  have hreads := sameReadsBut_withHist s h
  have hin : ¬ maxpal.toNat < (memRead .idx c { s with hist := h }).toNat := by
    rw [hreads .idx (by decide)]
    exact Nat.not_lt.2 hindex
  rw [paccCell, if_neg hin, paccAddr_congr hreads]
  rfl

/-- The loop of PACC counts all its cells if their indices are in the palette and their counters in the bank. -/
theorem palAcc_counts_every_cell {s : State} {ysec : BitVec 8} {idlimit : BitVec 24} {maxpal : BitVec 16}
    (hs : s.mode = .idle)
    (hgood : ∀ i < 4096, storedIndex s i ≤ maxpal.toNat ∧
      paletteAddress s ysec idlimit (storedIndex s) i < s.histCells) :
    (palAcc ysec idlimit maxpal s).mode = .idle ∧
      Counted (paletteAddress s ysec idlimit (storedIndex s)) 4096 s (palAcc ysec idlimit maxpal s) :=
  forCells_all_counted _ _ 4096 s hs (fun c hc h => paccCell_withHist s ysec idlimit maxpal c h (hgood c hc).1)
    fun c hc => (hgood c hc).2

/-- Settles O43: every cell of the loop is an increment inside the bank. -/
theorem paccCountsEveryCell : Obligations.PaccCountsEveryCell := by
  intro s ysec idlimit maxpal hs hgood
  obtain ⟨hidle, hcounted⟩ := palAcc_counts_every_cell hs hgood
  exact ⟨_, exec_of_idle _ hs, hidle, hcounted.counts⟩

end Sys2Proof.Machine
end

section
/-! SUPPORT. The sum of all counters: each cell counted adds 1 to it, a fault nothing, and FINFO says how many cells came
before the fault (R76, R146). -/

namespace Sys2Proof.Machine

/-! ### The sum of the counters -/

theorem bankTotal_eq_sum (s : State) : bankTotal s = ∑ a ∈ Finset.range s.histCells, (memRead .hist a s).toNat := rfl

/-- The sum depends on what HIST reads and on the size of the bank alone. -/
theorem bankTotal_congr {s t : State} {ms : List MemId} (hreads : SameReadsBut ms s t) (hm : .hist ∉ ms)
    (hown : SameOwn s t) : bankTotal t = bankTotal s := by
  simp only [bankTotal, hown.histCells, hreads .hist hm]

theorem bankTotal_raise (cause : Cause) (info : BitVec 15) (val : Word) (s : State) :
    bankTotal (raise cause info val s) = bankTotal s :=
  bankTotal_congr (ms := []) (fun m _ i => memRead_raise cause info val s m i) (by simp) (.raise (.refl s) _ _ _)

/-- The state with the counter at `a` greater by 1. -/
def incremented (a : Nat) (s : State) : State := memWrite .hist a (memRead .hist a s + 1) s

/-- A counter below its greatest value is greater by 1 after its own increment and the same after another's. -/
theorem memRead_incremented_toNat (a b : Nat) {s : State} (hb : (memRead .hist b s).toNat + 1 < 2 ^ 64) :
    (memRead .hist b (incremented a s)).toNat = (memRead .hist b s).toNat + if a = b then 1 else 0 := by
  unfold incremented
  by_cases hab : a = b
  · subst hab
    rw [memRead_memWrite_same, if_pos rfl]
    exact (BitVec.toNat_add _ _).trans (Nat.mod_eq_of_lt hb)
  · rw [memRead_memWrite_other _ _ _ _ _ s (.inr (Ne.symm hab)), if_neg hab, Nat.add_zero]

/-- An increment inside the bank adds 1 to the sum, if no counter is at its greatest value. -/
theorem bankTotal_incremented {a : Nat} {s : State} (ha : a < s.histCells)
    (hroom : ∀ b < s.histCells, (memRead .hist b s).toNat + 1 < 2 ^ 64) :
    bankTotal (incremented a s) = bankTotal s + 1 := by
  have hcells : (incremented a s).histCells = s.histCells := memWrite_histCells _ _ _ s
  calc bankTotal (incremented a s)
      = ∑ b ∈ Finset.range s.histCells, (memRead .hist b (incremented a s)).toNat := by
        rw [bankTotal_eq_sum, hcells]
    _ = ∑ b ∈ Finset.range s.histCells, ((memRead .hist b s).toNat + if a = b then 1 else 0) :=
        Finset.sum_congr rfl fun b hb => memRead_incremented_toNat a b (hroom b (Finset.mem_range.1 hb))
    _ = bankTotal s + 1 := by
        rw [Finset.sum_add_distrib, Finset.sum_ite_eq, if_pos (Finset.mem_range.2 ha), bankTotal_eq_sum]

/-! ### A loop of counting cells -/

/-- Cell `c` of a counting command leaves a fault whose FINFO is its ordinal, or adds 1 to one counter inside the bank. -/
def CountsOneOrFaultsAt (c : Nat) (t u : State) : Prop :=
  (∃ cause val, u = raise cause (BitVec.ofNat 15 c) val t) ∨ ∃ a < t.histCells, u = incremented a t

theorem histInc_countsOneOrFaultsAt (a c : Nat) (t : State) : CountsOneOrFaultsAt c t (histInc a c t) :=
  (histInc_cases a c t).imp (fun h => ⟨_, _, h.2⟩) fun h => ⟨a, h⟩

theorem paccCell_countsOneOrFaultsAt (ysec : BitVec 8) (idlimit : BitVec 24) (maxpal : BitVec 16) (c : Nat)
    (t : State) : CountsOneOrFaultsAt c t (paccCell ysec idlimit maxpal c t) := by
  rcases paccCell_cases ysec idlimit maxpal c t with ⟨_, e⟩ | ⟨_, e⟩ <;> rw [e]
  · exact .inl ⟨_, _, rfl⟩
  · exact histInc_countsOneOrFaultsAt _ c t

/-- `n` increments after `s`: the sum of the counters is greater by `n`, and no counter by more than that. -/
structure Tallied (n : Nat) (s t : State) : Prop where
  histCells : t.histCells = s.histCells
  counter_le : ∀ a < s.histCells, (memRead .hist a t).toNat ≤ (memRead .hist a s).toNat + n
  total : bankTotal t = bankTotal s + n

theorem Tallied.zero (s : State) : Tallied 0 s s := ⟨rfl, fun _ _ => le_rfl, rfl⟩

/-- One more increment inside the bank, while every counter has room for it. -/
theorem Tallied.succ {n a : Nat} {s t : State} (h : Tallied n s t) (ha : a < t.histCells)
    (hroom : ∀ b < s.histCells, (memRead .hist b s).toNat + n + 1 < 2 ^ 64) :
    Tallied (n + 1) s (incremented a t) := by
  have hroom' : ∀ b < s.histCells, (memRead .hist b t).toNat + 1 < 2 ^ 64 := fun b hb =>
    (Nat.succ_le_succ (h.counter_le b hb)).trans_lt (hroom b hb)
  refine ⟨(memWrite_histCells _ _ _ t).trans h.histCells, fun b hb => ?_, ?_⟩
  · rw [memRead_incremented_toNat a b (hroom' b hb), ← Nat.add_assoc]
    exact Nat.add_le_add (h.counter_le b hb) (by split <;> decide)
  · rw [bankTotal_incremented ha (h.histCells ▸ hroom'), h.total, Nat.add_assoc]

/-- A loop of counting cells adds to the sum the number of its cells, or if it faults the ordinal in FINFO. -/
theorem forCells_bankTotal {cell : Nat → State → State} {n : Nat} {s : State} (hn : n ≤ 2 ^ 15) (hs : s.mode = .idle)
    (hcell : ∀ c t, CountsOneOrFaultsAt c t (cell c t))
    (hroom : ∀ a < s.histCells, (memRead .hist a s).toNat + n < 2 ^ 64) :
    bankTotal (forCells cell n 0 s) =
      bankTotal s + if (forCells cell n 0 s).mode = .fault then (forCells cell n 0 s).finfo.toNat else n := by
  have keep : ∀ c t, 0 ≤ c → c < 0 + n → t.mode = .idle → Tallied c s t → (cell c t).mode = .idle →
      Tallied (c + 1) s (cell c t) := by
    intro c t _ hc _ htally hidle
    rcases hcell c t with ⟨cause, val, e⟩ | ⟨a, ha, e⟩
    · simp [e] at hidle
    · rw [e]
      exact htally.succ ha fun b hb => by have := hroom b hb; omega
  rcases forCells_cases cell (fun c t => Tallied c s t) n 0 s hs (.zero s) keep with
    ⟨hidle, htally⟩ | ⟨c, t, _, hc, ht, htally, hfault, hend⟩
  · simp [hidle, htally.total]
  · rcases hcell c t with ⟨cause, val, e⟩ | ⟨a, _, e⟩
    · have hfinfo : (BitVec.ofNat 15 c).toNat = c := by rw [BitVec.toNat_ofNat]; omega
      rw [hend, e, bankTotal_raise, raise_mode, if_pos rfl, raise_finfo, hfinfo, htally.total]
    · simp [e, incremented, ht] at hfault

/-! ### The commands -/

/-- An UNPK leaves the sum as it is; its only fault is one of decode, with FINFO 0 (R18). -/
theorem exec_unpk_bankTotal {w : BitVec 5} {s t : State} (hs : s.mode = .idle)
    (h : exec (.unpkWc w) s = .next t ∨ exec (.unpkNc w) s = .next t) :
    bankTotal t = bankTotal s + if t.mode = .fault then t.finfo.toNat else 0 := by
  have htotal : bankTotal t = bankTotal s := by
    obtain ⟨hreads, hown, -⟩ := unpkFrame w s t h
    exact bankTotal_congr hreads (by simp) hown
  have hfinfo : t.mode = .fault → t.finfo = 0 := by
    intro ht
    rcases exec_unpk_cases h with rfl | ⟨_, x, rfl⟩ | ⟨_, rfl⟩ | ⟨_, _, hu⟩
    · simp [hs] at ht
    · rfl
    · simp [hs] at ht
    · simp [hu.registers.1, hs] at ht
  rw [htotal]
  split
  · next ht => simp [hfinfo ht]
  · rfl

/-- The loop of PACC adds to the sum 4096, or if it faults the ordinal in FINFO. -/
theorem palAcc_bankTotal {s : State} (ysec : BitVec 8) (idlimit : BitVec 24) (maxpal : BitVec 16)
    (hs : s.mode = .idle) (hroom : ∀ a < s.histCells, (memRead .hist a s).toNat + 4096 < 2 ^ 64) :
    bankTotal (palAcc ysec idlimit maxpal s) = bankTotal s +
      if (palAcc ysec idlimit maxpal s).mode = .fault then (palAcc ysec idlimit maxpal s).finfo.toNat else 4096 :=
  forCells_bankTotal (by decide) hs (paccCell_countsOneOrFaultsAt ysec idlimit maxpal) hroom

/-- A DEC13 adds to the sum what its loop of PACC adds: the phases before it leave the counters as they are. -/
theorem exec_dec13_bankTotal {y : BitVec 8} {l : BitVec 24} {m : BitVec 16} {s t : State} (hs : s.mode = .idle)
    (hroom : ∀ a < s.histCells, (memRead .hist a s).toNat + 4096 < 2 ^ 64)
    (h : exec (.dec13Wc y l m) s = .next t ∨ exec (.dec13Nc y l m) s = .next t) :
    bankTotal t = bankTotal s + if t.mode = .fault then t.finfo.toNat else 4096 := by
  rcases exec_dec13_cases h with ⟨hf, _⟩ | ⟨u, hu, rfl⟩
  · simp [hs] at hf
  · have hreads : SameReadsBut [.idx] s u := ((sameReadsBut_setWreg (widthSel m) s).mono (by simp)).trans hu.reads
    have hown : SameOwn s u := .trans (t := setWreg (widthSel m) s) ⟨rfl, rfl, rfl, rfl⟩ hu.own
    have hroom' : ∀ a < u.histCells, (memRead .hist a u).toNat + 4096 < 2 ^ 64 := by
      simpa only [hown.histCells, hreads .hist (by decide)] using hroom
    rw [palAcc_bankTotal y l m (hu.registers.1.trans hs) hroom', bankTotal_congr hreads (by simp) hown]

/-- Settles O23: a loop of counting cells adds one for each cell before its end, and what else a command does leaves the
counters as they are. -/
theorem histogramConservation : Obligations.HistogramConservation := by
  intro i s t hs h hroom
  have hrule : t = commandRule i s := Host.Outcome.next.inj (h.symm.trans (exec_of_idle i hs))
  cases i with
  | dec0 => exact hrule ▸ forCells_bankTotal le_rfl hs (fun c t => histInc_countsOneOrFaultsAt _ c t) hroom
  | dec2 y l => exact hrule ▸ forCells_bankTotal (by decide) hs (fun c t => histInc_countsOneOrFaultsAt _ c t) hroom
  | pacc y l m => exact hrule ▸ palAcc_bankTotal y l m hs hroom
  | dec13Wc y l m => exact exec_dec13_bankTotal hs hroom (.inl h)
  | dec13Nc y l m => exact exec_dec13_bankTotal hs hroom (.inr h)
  | unpkWc w => exact exec_unpk_bankTotal hs (.inl h)
  | unpkNc w => exact exec_unpk_bankTotal hs (.inr h)
  | wsel m =>
    subst hrule
    have htotal := bankTotal_congr (sameReadsBut_setWreg (widthSel m) s) (by simp) ⟨rfl, rfl, rfl, rfl⟩
    simpa [commandRule, cellsCounted, hs] using htotal

end Sys2Proof.Machine
end

section
/-! SUPPORT. The bits of a number from a bit position on, and the fields of `PackWC` (R34, R105, R110). -/

namespace Sys2Proof.Machine

/-- The `len` bits of `x` from bit `i` on: `x[i + len - 1 : i]` of the spec's slices (R34, R105). -/
def bitsAt (x i len : Nat) : Nat := x / 2 ^ i % 2 ^ len

theorem bitsAt_lt (x i len : Nat) : bitsAt x i len < 2 ^ len := Nat.mod_lt _ (Nat.two_pow_pos len)

@[simp] theorem testBit_bitsAt (x i len j : Nat) :
    (bitsAt x i len).testBit j = (decide (j < len) && x.testBit (j + i)) := by
  rw [bitsAt, Nat.testBit_mod_two_pow, Nat.testBit_div_two_pow]

/-- Bits of bits. -/
theorem bitsAt_bitsAt {x i len i' len' : Nat} (h : i' + len' ≤ len) :
    bitsAt (bitsAt x i len) i' len' = bitsAt x (i + i') len' := by
  refine Nat.eq_of_testBit_eq fun j => ?_
  by_cases hj : j < len'
  · simp [hj, show j + i' < len by omega, show j + i' + i = j + (i + i') by omega]
  · simp [hj]

/-- Bits of the low bits of a number are bits of the number. -/
theorem bitsAt_mod {x len i' len' : Nat} (h : i' + len' ≤ len) : bitsAt (x % 2 ^ len) i' len' = bitsAt x i' len' := by
  simpa [bitsAt] using bitsAt_bitsAt (x := x) (i := 0) h

/-- Dropping the lowest `k` bits. -/
theorem bitsAt_div {x i len k : Nat} (h : k ≤ len) : bitsAt x i len / 2 ^ k = bitsAt x (i + k) (len - k) := by
  rw [← bitsAt_bitsAt (show k + (len - k) ≤ len by omega), bitsAt.eq_1 (bitsAt x i len)]
  refine (Nat.mod_eq_of_lt (Nat.div_lt_of_lt_mul ?_)).symm
  rw [← pow_add, Nat.add_sub_cancel' h]
  exact bitsAt_lt x i len

/-- A run of bits is its low part and, above it, its high part. -/
theorem bitsAt_add (x i a b : Nat) : bitsAt x i (a + b) = bitsAt x i a + bitsAt x (i + a) b * 2 ^ a := by
  rw [bitsAt, pow_add, Nat.mod_mul, Nat.div_div_eq_div_mul, ← pow_add, Nat.mul_comm]
  rfl

theorem packedNumber_lt {v : Nat → Nat} {w : Nat} :
    ∀ {count : Nat}, (∀ n < count, v n < 2 ^ w) → packedNumber v w count < 2 ^ (count * w) := by
  intro count
  induction count with
  | zero => intro _; simp [packedNumber]
  | succ count ih =>
    intro hv
    have hlow := ih fun n hn => hv n (by omega)
    calc packedNumber v w count + v count * 2 ^ (count * w)
        < (v count + 1) * 2 ^ (count * w) := by rw [Nat.add_one_mul]; omega
      _ ≤ 2 ^ w * 2 ^ (count * w) := Nat.mul_le_mul_right _ (hv count (by omega))
      _ = 2 ^ ((count + 1) * w) := by rw [← pow_add, Nat.add_one_mul, Nat.add_comm]

/-- Values packed `w` bits each come back from their places (R110). -/
theorem bitsAt_packedNumber {v : Nat → Nat} {w n : Nat} :
    ∀ {count : Nat}, (∀ n < count, v n < 2 ^ w) → n < count →
      bitsAt (packedNumber v w count) (n * w) w = v n := by
  intro count
  induction count with
  | zero => intro _ hn; exact absurd hn (Nat.not_lt_zero n)
  | succ count ih =>
    intro hv hn
    have hv' : ∀ n < count, v n < 2 ^ w := fun n hn => hv n (by omega)
    rw [packedNumber]
    by_cases hlast : n = count
    · subst hlast
      rw [bitsAt, Nat.add_mul_div_right _ _ (Nat.two_pow_pos _), Nat.div_eq_of_lt (packedNumber_lt hv'), Nat.zero_add,
        Nat.mod_eq_of_lt (hv n hn)]
    · have hlt : n < count := by omega
      have hplace : n * w + w ≤ count * w := by rw [← Nat.add_one_mul]; exact Nat.mul_le_mul_right w hlt
      rw [← bitsAt_mod hplace, Nat.add_mul_mod_self_right, bitsAt_mod hplace, ih hv' hlt]

/-- The stream is the words of PK packed 64 bits each (R105). -/
theorem streamNumber_eq_packedNumber (s : State) (words : Nat) :
    streamNumber s words = packedNumber (fun k => (memRead .pk k s).toNat) 64 words := by
  induction words with
  | zero => rfl
  | succ k ih => rw [streamNumber, packedNumber, ih, Nat.mul_comm 64 k]

/-- Word `k` of PK is bits 64k to 64k + 63 of the stream (R105). -/
theorem bitsAt_streamNumber (s : State) {k words : Nat} (hk : k < words) :
    bitsAt (streamNumber s words) (k * 64) 64 = (memRead .pk k s).toNat := by
  rw [streamNumber_eq_packedNumber]
  exact bitsAt_packedNumber (fun n _ => (memRead .pk n s).isLt) hk

/-- The value slots of a word under `PackNC` are packed as `PackWC` packs (R110). -/
theorem ncWordNumber_eq_packedNumber (v : Nat → Nat) (w k count : Nat) :
    ncWordNumber v w k count =
      packedNumber (fun j => if k * (64 / w) + j ≤ 4095 then v (k * (64 / w) + j) else 0) w count := by
  induction count with
  | zero => rfl
  | succ j ih => rw [ncWordNumber, packedNumber, ih]

end Sys2Proof.Machine
end

section
/-! SUPPORT. One feed of the accumulator (R103, R111), and what an unpack has written of IDX (R100). -/

namespace Sys2Proof.Machine

/-! ### Values of IDX -/

/-- The entries produced so far are the first of `value`. -/
def Produced (value : Nat → Nat) (b : Bsu) : Prop := ∀ n < b.n, b.idx.get? n = some (BitVec.ofNat 16 (value n))

theorem Produced.emitted {value : Nat → Nat} {b b' : Bsu} {m : Nat} {v : Nat → BitVec 16} (h : Produced value b)
    (he : Emitted b b' m v) (hv : ∀ i < m, v i = BitVec.ofNat 16 (value (b.n + i))) : Produced value b' := by
  intro n hn
  rw [he.1] at hn
  rw [he.2 n]
  by_cases hnew : b.n ≤ n
  · rw [if_pos ⟨hnew, hn⟩, hv _ (by omega), Nat.add_sub_cancel' hnew]
  · rw [if_neg fun hc => hnew hc.1, h n (by omega)]

/-- A value taken from bit `i` of a word on (R103, R104). -/
theorem maskedValue_shift (w i : Nat) (x : Word) : maskedValue w (x >>> i) = BitVec.ofNat 16 (bitsAt x.toNat i w) := by
  rw [maskedValue, BitVec.toNat_ushiftRight, Nat.shiftRight_eq_div_pow, bitsAt]

/-! ### One feed -/

/-- A feed goes above the bits still in the accumulator, which has room for both: no bit is lost (R111). -/
theorem fed_toNat {acc : Word} {half : BitVec 32} {nbits : Nat} (hacc : acc.toNat < 2 ^ nbits) (hn : nbits ≤ 15) :
    (acc ||| half.setWidth 64 <<< nbits).toNat = acc.toNat + half.toNat * 2 ^ nbits ∧
      acc.toNat + half.toNat * 2 ^ nbits < 2 ^ (nbits + 32) := by
  have hfits : acc.toNat + half.toNat * 2 ^ nbits < 2 ^ (nbits + 32) := by
    calc acc.toNat + half.toNat * 2 ^ nbits < (half.toNat + 1) * 2 ^ nbits := by rw [Nat.add_one_mul]; omega
      _ ≤ 2 ^ 32 * 2 ^ nbits := Nat.mul_le_mul_right _ half.isLt
      _ = 2 ^ (nbits + 32) := by rw [← pow_add, Nat.add_comm]
  have hroom : 2 ^ (nbits + 32) ≤ 2 ^ 64 := Nat.pow_le_pow_right (by decide) (by omega)
  refine ⟨?_, hfits⟩
  have hshift : (half.setWidth 64 <<< nbits).toNat = half.toNat <<< nbits := by
    rw [BitVec.toNat_shiftLeft, BitVec.toNat_setWidth_of_le (by decide), Nat.shiftLeft_eq, Nat.mod_eq_of_lt (by omega)]
  rw [BitVec.toNat_or, hshift, Nat.or_comm, ← Nat.shiftLeft_add_eq_or_of_lt hacc, Nat.shiftLeft_eq, Nat.add_comm]

/-- The unpacker with one half word fed above the leftover (R103). -/
def fedWith (half : BitVec 32) (b : Bsu) : Bsu :=
  { b with acc := b.acc ||| half.setWidth 64 <<< b.nbits, nbits := b.nbits + 32 }

theorem wcFeed_of_lt {w : Nat} {half : BitVec 32} {b : Bsu} (hn : b.n < 4096) :
    wcFeed w half b = wcDrain w (b.nbits + 32) (fedWith half b) := if_neg hn.ne

/-- What a feed does before the 4096th value, to an accumulator with less than one value left over: it takes the `m`
whole values of the leftover and the feed together, or as many as the buffer still lacks (R103). -/
theorem wcFeed_spec {w m x : Nat} {half : BitVec 32} {b : Bsu} (hw : 4 ≤ w) (hw' : w ≤ 16) (hb : b.nbits < w)
    (hacc : b.acc.toNat < 2 ^ b.nbits) (hn : b.n < 4096) (hm : m = min ((b.nbits + 32) / w) (4096 - b.n))
    (hx : x = b.acc.toNat + half.toNat * 2 ^ b.nbits) :
    Emitted b (wcFeed w half b) m (fun j => BitVec.ofNat 16 (bitsAt x (j * w) w)) ∧
      (wcFeed w half b).acc.toNat = x / 2 ^ (m * w) ∧ (wcFeed w half b).nbits = b.nbits + 32 - m * w ∧
      (wcFeed w half b).k = b.k := by
  have hfed : (fedWith half b).acc.toNat = x := hx ▸ (fed_toNat hacc (by omega)).1
  obtain ⟨he, ha, hnbits, hk⟩ := wcDrain_spec w (by omega) (b.nbits + 32) (fedWith half b) le_rfl hn.le
  have hm' : min ((fedWith half b).nbits / w) (Config.cells - (fedWith half b).n) = m := hm.symm
  rw [hm', ← wcFeed_of_lt hn] at he ha hnbits
  simp only [maskedValue_shift, hfed] at he
  rw [← wcFeed_of_lt hn] at hk
  refine ⟨he, ?_, hnbits, hk⟩
  rw [ha, BitVec.toNat_ushiftRight, hfed, Nat.shiftRight_eq_div_pow]

/-- Settles O41: the feed has room above the leftover, and what it does not take is less than one value. -/
theorem accumulatorLosesNoBit : Obligations.AccumulatorLosesNoBit := by
  intro w half b hw hw' hb hacc hn
  obtain ⟨hor, hfits⟩ := fed_toNat (half := half) hacc (by omega)
  obtain ⟨he, ha, hnb, -⟩ := wcFeed_spec (half := half) hw hw' hb hacc hn rfl rfl
  have hle : 2 ^ (b.nbits + 32) ≤ 2 ^ 47 := Nat.pow_le_pow_right (by decide) (by omega)
  have htaken : min ((b.nbits + 32) / w) (4096 - b.n) * w ≤ b.nbits + 32 :=
    (Nat.mul_le_mul_right w (Nat.min_le_left _ _)).trans (Nat.div_mul_le_self _ w)
  refine ⟨by omega, hor, hor ▸ hfits.trans_le hle, ?_, by rw [he.1]; omega, ?_⟩
  · rw [he.1, hnb]
    by_cases hfull : 4096 - b.n ≤ (b.nbits + 32) / w
    · exact .inl (by omega)
    · rw [Nat.min_eq_left (by omega), ← Nat.mod_eq_sub_div_mul]
      exact .inr (Nat.mod_lt _ (by omega))
  · rw [ha, hnb]
    refine Nat.div_lt_of_lt_mul (hfits.trans_eq ?_)
    rw [← pow_add, Nat.add_sub_cancel' htaken]

end Sys2Proof.Machine
end

section
/-! SUPPORT. The unpack with carry as a whole: how far it is after a number of feeds or words, and where it ends
(R105, R107). -/

namespace Sys2Proof.Machine

/-- The outer loop under a `P` that every word read before the 4096th value keeps and that puts the 4096th value at the
end of the first `words` words, no more than fuel 1024 admits: it reads those words and ends with `P` (R100, R108;
log 13). -/
theorem unpackWords_ends {takeWord : Word → Bsu → Bsu} {pk : Nat → Word} {P : Bsu → Prop} {words : Nat}
    (hwords : words ≤ 1024) (hend : ∀ b, P b → b.k ≤ words ∧ (b.n = 4096 ↔ b.k = words))
    (hword : ∀ b, P b → b.n ≠ 4096 → P (takeWord (pk b.k) b) ∧ (takeWord (pk b.k) b).k = b.k + 1)
    {b : Bsu} (hb : P b) :
    (unpackWords takeWord pk 1024 b).k = words ∧ (unpackWords takeWord pk 1024 b).n = 4096 ∧
      P (unpackWords takeWord pk 1024 b) := by
  obtain ⟨hP, hfull⟩ := unpackWords_cases takeWord pk P (fun b h hne => (hword b h hne).1) 1024 b hb
  have hn := hfull (fun b h hne => (hword b h hne).2)
    (fun b h hk => (hend b h).2.2 (le_antisymm (hend b h).1 (hwords.trans hk))) (Nat.le_add_left _ _)
  exact ⟨(hend _ hP).2.1 hn, hn, hP⟩

/-! ### With carry -/

/-- The unpacker after the first `feeds` half words of a stream whose number is `x`: every whole value among their bits
has been taken, and the bits left over are in the accumulator (R105). -/
structure WcFed (w x feeds : Nat) (b : Bsu) : Prop where
  n : b.n = 32 * feeds / w
  nbits : b.nbits = 32 * feeds % w
  acc : b.acc.toNat = bitsAt x (b.n * w) b.nbits
  values : Produced (fun n => bitsAt x (n * w) w) b

variable {w x : Nat}

theorem wcFed_start (idx : Memory 16) : WcFed w x 0 (bsuStart idx) where
  n := by simp [bsuStart]
  nbits := by simp [bsuStart]
  acc := by simp [bsuStart, bitsAt, Nat.mod_one]
  values := fun n hn => absurd hn (Nat.not_lt_zero n)

/-- No value is taken past the 4096th, which is out after 128 feeds a bit of width and not before (R107). -/
theorem WcFed.full_iff {feeds : Nat} {b : Bsu} (h : WcFed w x feeds b) (hw : 4 ≤ w) (hle : feeds ≤ 128 * w) :
    b.n ≤ 4096 ∧ (b.n = 4096 ↔ feeds = 128 * w) := by
  have hn : b.n ≤ 4096 := h.n ▸ Nat.div_le_of_le_mul (by omega)
  have hfull : 4096 ≤ b.n ↔ 4096 * w ≤ 32 * feeds := by rw [h.n, Nat.le_div_iff_mul_le (by omega)]
  omega

theorem WcFed.feed {feeds : Nat} {half : BitVec 32} {b : Bsu} (h : WcFed w x feeds b) (hw : 4 ≤ w) (hw' : w ≤ 16)
    (hlt : feeds < 128 * w) (hhalf : half.toNat = bitsAt x (32 * feeds) 32) :
    WcFed w x (feeds + 1) (wcFeed w half b) ∧ (wcFeed w half b).k = b.k := by
  have hpos : 0 < w := by omega
  have hnbits : b.nbits < w := h.nbits ▸ Nat.mod_lt _ hpos
  have hread : b.n * w + b.nbits = 32 * feeds := by rw [h.n, h.nbits, Nat.div_add_mod']
  have hend := h.full_iff hw hlt.le
  have hn : b.n < 4096 := by omega
  have hnew : 32 * (feeds + 1) = b.nbits + 32 + b.n * w := by omega
  have hfits : (b.nbits + 32) / w ≤ 4096 - b.n := by
    have hend : 32 * (feeds + 1) / w ≤ 4096 := Nat.div_le_of_le_mul (by omega)
    rw [hnew, Nat.add_mul_div_right _ _ hpos] at hend
    omega
  have htaken : (b.nbits + 32) / w * w ≤ b.nbits + 32 := Nat.div_mul_le_self _ w
  obtain ⟨he, ha, hnb, hk⟩ := wcFeed_spec (half := half) (x := bitsAt x (b.n * w) (b.nbits + 32)) hw hw' hnbits
    (h.acc ▸ bitsAt_lt _ _ _) hn (Nat.min_eq_left hfits).symm (by rw [bitsAt_add, hread, h.acc, hhalf])
  have hn' : (wcFeed w half b).n = b.n + (b.nbits + 32) / w := he.1
  refine ⟨⟨?_, ?_, ?_, h.values.emitted he fun i hi => ?_⟩, hk⟩
  · rw [hn', hnew, Nat.add_mul_div_right _ _ hpos, Nat.add_comm]
  · rw [hnb, hnew, Nat.add_mul_mod_self_right, ← Nat.mod_eq_sub_div_mul]
  · rw [ha, hnb, hn', bitsAt_div htaken, Nat.add_mul]
  · have hin : i * w + w ≤ b.nbits + 32 := by
      rw [← Nat.add_one_mul]
      exact (Nat.mul_le_mul_right w hi).trans htaken
    rw [bitsAt_bitsAt hin, Nat.add_mul]

/-- The unpacker after its first `k` words of that stream, two feeds each (R103). -/
def WcRead (w x : Nat) (b : Bsu) : Prop := b.k ≤ 64 * w ∧ WcFed w x (2 * b.k) b

theorem WcRead.full_iff {b : Bsu} (h : WcRead w x b) (hw : 4 ≤ w) : b.n = 4096 ↔ b.k = 64 * w :=
  (h.2.full_iff hw (by have := h.1; omega)).2.trans (by omega)

theorem lowHalf_toNat (word : Word) : (lowHalf word).toNat = bitsAt word.toNat 0 32 := by
  rw [lowHalf, BitVec.extractLsb'_toNat, Nat.shiftRight_eq_div_pow, bitsAt]

theorem highHalf_toNat (word : Word) : (highHalf word).toNat = bitsAt word.toNat 32 32 := by
  rw [highHalf, BitVec.extractLsb'_toNat, Nat.shiftRight_eq_div_pow, bitsAt]

/-- Reading a word is feeding its low half and then its high half (R34, R103). -/
theorem WcRead.word {word : Word} {b : Bsu} (h : WcRead w x b) (hw : 4 ≤ w) (hw' : w ≤ 16) (hne : b.n ≠ 4096)
    (hword : word.toNat = bitsAt x (b.k * 64) 64) :
    WcRead w x (wcWord w word b) ∧ (wcWord w word b).k = b.k + 1 := by
  have hlt : b.k < 64 * w := lt_of_le_of_ne h.1 (mt (h.full_iff hw).2 hne)
  have hlow : (lowHalf word).toNat = bitsAt x (32 * (2 * b.k)) 32 := by
    rw [lowHalf_toNat, hword, bitsAt_bitsAt (by decide), show b.k * 64 + 0 = 32 * (2 * b.k) by omega]
  have hhigh : (highHalf word).toNat = bitsAt x (32 * (2 * b.k + 1)) 32 := by
    rw [highHalf_toNat, hword, bitsAt_bitsAt (by decide), show b.k * 64 + 32 = 32 * (2 * b.k + 1) by omega]
  have hstart : WcFed w x (2 * b.k) { b with k := b.k + 1 } := ⟨h.2.n, h.2.nbits, h.2.acc, h.2.values⟩
  obtain ⟨hfirst, hk⟩ := hstart.feed hw hw' (by omega) hlow
  obtain ⟨hsecond, hk'⟩ := hfirst.feed hw hw' (by omega) hhigh
  have hk2 : (wcWord w word b).k = b.k + 1 := hk'.trans hk
  exact ⟨⟨hk2 ▸ hlt, hk2 ▸ hsecond⟩, hk2⟩

/-- The unpack with carry reads the words 0 to 64w - 1 and produces 4096 values, those of the stream the words are of
(R105, R107). -/
theorem unpackWords_wcWord {pk : Nat → Word} (idx : Memory 16) (hw : 4 ≤ w) (hw' : w ≤ 16)
    (hpk : ∀ k < 64 * w, (pk k).toNat = bitsAt x (k * 64) 64) :
    (unpackWords (wcWord w) pk 1024 (bsuStart idx)).k = 64 * w ∧
      (unpackWords (wcWord w) pk 1024 (bsuStart idx)).n = 4096 ∧
      Produced (fun n => bitsAt x (n * w) w) (unpackWords (wcWord w) pk 1024 (bsuStart idx)) := by
  obtain ⟨hk, hn, hread⟩ := unpackWords_ends (P := WcRead w x) (show 64 * w ≤ 1024 by omega)
    (fun b h => ⟨h.1, h.full_iff hw⟩)
    (fun b h hne => h.word hw hw' hne (hpk _ (lt_of_le_of_ne h.1 (mt (h.full_iff hw).2 hne))))
    (b := bsuStart idx) ⟨Nat.zero_le _, wcFed_start idx⟩
  exact ⟨hk, hn, hread.2.values⟩

end Sys2Proof.Machine
end

section
/-! SUPPORT. The unpack without carry as a whole: how far it is after a number of words, and where it ends
(R106, R107). -/

namespace Sys2Proof.Machine

/-- The words an unpack without carry reads: 4096 divided by the values per word, rounded up (R107). -/
def ncWords (w : Nat) : Nat := (4096 + 64 / w - 1) / (64 / w)

theorem four_le_valuesPerWord {w : Nat} (hw : 4 ≤ w) (hw' : w ≤ 16) : 4 ≤ 64 / w :=
  (Nat.le_div_iff_mul_le (by omega)).2 (by omega)

/-- So many words hold 4096 values, and fewer do not. -/
theorem ncWords_le_iff {w : Nat} (hv : 4 ≤ 64 / w) (k : Nat) : ncWords w ≤ k ↔ 4096 ≤ k * (64 / w) := by
  rw [ncWords, Nat.div_le_iff_le_mul_add_pred (by omega), Nat.mul_comm]
  omega

/-- PK has entries enough (R107). -/
theorem ncWords_le_pkWords {w : Nat} (hw : 4 ≤ w) (hw' : w ≤ 16) : ncWords w ≤ 1024 := by
  have hv := four_le_valuesPerWord hw hw'
  exact (ncWords_le_iff hv 1024).2 (by omega)

/-- The unpacker after its first `k` words, whose whole values have been taken up to the 4096th (R106). -/
structure NcRead (w : Nat) (pk : Nat → Word) (b : Bsu) : Prop where
  k : b.k ≤ ncWords w
  n : b.n = min (b.k * (64 / w)) 4096
  values : Produced (fun n => bitsAt (pk (n / (64 / w))).toNat (n % (64 / w) * w) w) b

variable {w : Nat} {pk : Nat → Word}

theorem ncRead_start (idx : Memory 16) : NcRead w pk (bsuStart idx) where
  k := Nat.zero_le _
  n := by simp [bsuStart]
  values := fun n hn => absurd hn (Nat.not_lt_zero n)

theorem NcRead.full_iff {b : Bsu} (h : NcRead w pk b) (hv : 4 ≤ 64 / w) : b.n = 4096 ↔ b.k = ncWords w := by
  have hfull := ncWords_le_iff hv b.k
  have hn := h.n
  have hk := h.k
  omega

theorem NcRead.word {b : Bsu} (h : NcRead w pk b) (hv : 4 ≤ 64 / w) (hne : b.n ≠ 4096) :
    NcRead w pk (ncWord w (pk b.k) b) ∧ (ncWord w (pk b.k) b).k = b.k + 1 := by
  have hn : b.n = b.k * (64 / w) := by have := h.n; omega
  have hlt : b.k < ncWords w := lt_of_le_of_ne h.k (mt (h.full_iff hv).2 hne)
  obtain ⟨he, hk⟩ := ncTake_spec w (pk b.k) (64 / w) 0 { b with k := b.k + 1 } (h.n ▸ Nat.min_le_right _ _)
  have hk' : (ncWord w (pk b.k) b).k = b.k + 1 := hk
  have hn' : (ncWord w (pk b.k) b).n = b.n + min (64 / w) (4096 - b.n) := he.1
  refine ⟨⟨hk' ▸ hlt, ?_, Produced.emitted (b := { b with k := b.k + 1 }) h.values he fun i hi => ?_⟩, hk'⟩
  · rw [hn', hk', Nat.add_one_mul, ← hn]
    have := h.n
    omega
  · have hslot : i < 64 / w := lt_of_lt_of_le hi (Nat.min_le_left _ _)
    have hword : (b.n + i) / (64 / w) = b.k := by
      rw [hn, Nat.mul_comm, Nat.mul_add_div (by omega), Nat.div_eq_of_lt hslot, Nat.add_zero]
    have hslot' : (b.n + i) % (64 / w) = i := by rw [hn, Nat.mul_comm, Nat.mul_add_mod, Nat.mod_eq_of_lt hslot]
    simp only [maskedValue_shift, Nat.zero_add, hword, hslot']

/-- The unpack without carry reads its words and produces 4096 values, value n from slot n mod vpw of word n div vpw
(R106, R107). -/
theorem unpackWords_ncWord (pk : Nat → Word) (idx : Memory 16) (hw : 4 ≤ w) (hw' : w ≤ 16) :
    (unpackWords (ncWord w) pk 1024 (bsuStart idx)).k = ncWords w ∧
      (unpackWords (ncWord w) pk 1024 (bsuStart idx)).n = 4096 ∧
      Produced (fun n => bitsAt (pk (n / (64 / w))).toNat (n % (64 / w) * w) w)
        (unpackWords (ncWord w) pk 1024 (bsuStart idx)) := by
  have hv := four_le_valuesPerWord hw hw'
  obtain ⟨hk, hn, hread⟩ := unpackWords_ends (P := NcRead w pk) (ncWords_le_pkWords hw hw')
    (fun b h => ⟨h.k, h.full_iff hv⟩) (fun b h hne => h.word hv hne) (ncRead_start idx)
  exact ⟨hk, hn, hread.values⟩

/-- Settles O36: each convention ends where its words hold 4096 values. -/
theorem unpackWordsRead : Obligations.UnpackWordsRead := by
  intro w pk idx hw hw'
  obtain ⟨hwcK, hwcN, -⟩ := unpackWords_wcWord (x := packedNumber (fun k => (pk k).toNat) 64 1024) idx hw hw'
    fun k hk => (bitsAt_packedNumber (fun n _ => (pk n).isLt) (show k < 1024 by omega)).symm
  obtain ⟨hncK, hncN, -⟩ := unpackWords_ncWord pk idx hw hw'
  exact ⟨hwcK, hwcN, hncK, hncN⟩

end Sys2Proof.Machine
end

section
/-! SUPPORT. What UNPK leaves in IDX, in closed form (R105, R106), and its consequences (R101, R107, R109, R110). -/

namespace Sys2Proof.Machine

/-! ### The unpack procedures -/

/-- The values an unpack has produced are what IDX reads after it. -/
theorem memRead_unpackInto {takeWord : Word → Bsu → Bsu} {s : State} {value : Nat → Nat}
    (hfull : (unpackWords takeWord (fun k => memRead .pk k s) 1024 (bsuStart s.idx)).n = 4096)
    (hvalues : Produced value (unpackWords takeWord (fun k => memRead .pk k s) 1024 (bsuStart s.idx)))
    {n : Nat} (hn : n < 4096) (hfits : value n < 2 ^ 16) :
    (memRead .idx n (unpackInto takeWord s)).toNat = value n := by
  have hentry : ((unpackInto takeWord s).cells .idx).get? n = some (BitVec.ofNat 16 (value n)) :=
    hvalues n (hfull.symm ▸ hn)
  rw [memRead, hentry]
  exact (BitVec.toNat_ofNat _ _).trans (Nat.mod_eq_of_lt hfits)

theorem bitsAt_lt_entry {w : Nat} (x i : Nat) (hw' : w ≤ 16) : bitsAt x i w < 2 ^ 16 :=
  (bitsAt_lt x i w).trans_le (Nat.pow_le_pow_right (by decide) hw')

/-- Entry n after an unpack with carry, for any number that the words read are the words of (R105). -/
theorem memRead_unpackWc {w x : Nat} {s : State} (hw : 4 ≤ w) (hw' : w ≤ 16)
    (hpk : ∀ k < 64 * w, (memRead .pk k s).toNat = bitsAt x (k * 64) 64) {n : Nat} (hn : n < 4096) :
    (memRead .idx n (unpackWc w s)).toNat = bitsAt x (n * w) w := by
  obtain ⟨-, hfull, hvalues⟩ := unpackWords_wcWord s.idx hw hw' hpk
  exact memRead_unpackInto hfull hvalues hn (bitsAt_lt_entry x _ hw')

theorem memRead_unpackWc_eq_wcValue {w : Nat} (s : State) (hw : 4 ≤ w) (hw' : w ≤ 16) {n : Nat} (hn : n < 4096) :
    (memRead .idx n (unpackWc w s)).toNat = wcValue s w n :=
  memRead_unpackWc hw hw' (fun _ hk => (bitsAt_streamNumber s (by omega)).symm) hn

theorem memRead_unpackNc_eq_ncValue {w : Nat} (s : State) (hw : 4 ≤ w) (hw' : w ≤ 16) {n : Nat} (hn : n < 4096) :
    (memRead .idx n (unpackNc w s)).toNat = ncValue s w n := by
  obtain ⟨-, hfull, hvalues⟩ := unpackWords_ncWord (fun k => memRead .pk k s) s.idx hw hw'
  exact memRead_unpackInto hfull hvalues hn (bitsAt_lt_entry _ _ hw')

/-- Where value n without carry comes from: a slot below the dropped bits of one of the words read (R104, R107). -/
theorem slot_of_value {w n : Nat} (hw : 4 ≤ w) (hw' : w ≤ 16) (hn : n < 4096) :
    n / (64 / w) < ncWords w ∧ n % (64 / w) * w + w ≤ 64 / w * w ∧ 64 / w * w ≤ 64 := by
  have hv := four_le_valuesPerWord hw hw'
  refine ⟨not_le.1 fun hc => ?_, ?_, Nat.div_mul_le_self 64 w⟩
  · have := (ncWords_le_iff hv _).1 hc
    have := Nat.div_mul_le_self n (64 / w)
    omega
  · rw [← Nat.add_one_mul]
    exact Nat.mul_le_mul_right w (Nat.mod_lt n (by omega))

/-- Value n without carry is its slot among the bits that are not dropped (R104). -/
theorem ncValue_eq_slot {w n : Nat} (s : State) (hw : 4 ≤ w) (hw' : w ≤ 16) (hn : n < 4096) :
    ncValue s w n = bitsAt ((memRead .pk (n / (64 / w)) s).toNat % 2 ^ (64 / w * w)) (n % (64 / w) * w) w :=
  (bitsAt_mod (slot_of_value hw hw' hn).2.1).symm

/-! ### The commands -/

theorem unpkRule_admitted (i : Instr) {w : BitVec 5} (unpack : Nat → State → State) (s : State) (hw : 4 ≤ w.toNat)
    (hw' : w.toNat ≤ 16) : unpkRule i w unpack s = unpack w.toNat s := by
  rw [unpkRule, if_neg (Nat.not_lt.2 hw), if_neg (Nat.not_lt.2 hw')]

theorem unpkRule_above_ceiling (i : Instr) {w : BitVec 5} (unpack : Nat → State → State) (s : State)
    (hw : 16 < w.toNat) : unpkRule i w unpack s = flagUnsupportedWidth s := by
  rw [unpkRule, if_neg (Nat.not_lt.2 (show 4 ≤ w.toNat by omega)), if_pos hw]

theorem exec_unpkWc_admitted {w : BitVec 5} {s : State} (hs : s.mode = .idle) (hw : 4 ≤ w.toNat)
    (hw' : w.toNat ≤ 16) : exec (.unpkWc w) s = .next (unpackWc w.toNat s) :=
  (exec_of_idle _ hs).trans (congrArg _ (unpkRule_admitted _ _ s hw hw'))

theorem exec_unpkNc_admitted {w : BitVec 5} {s : State} (hs : s.mode = .idle) (hw : 4 ≤ w.toNat)
    (hw' : w.toNat ≤ 16) : exec (.unpkNc w) s = .next (unpackNc w.toNat s) :=
  (exec_of_idle _ hs).trans (congrArg _ (unpkRule_admitted _ _ s hw hw'))

/-- Settles O34: above 16 the rule of an UNPK flags the width. -/
theorem unpkAboveSixteenOnlyFlags : Obligations.UnpkAboveSixteenOnlyFlags := fun s _ hs hw =>
  ⟨(exec_of_idle _ hs).trans (congrArg _ (unpkRule_above_ceiling _ _ s hw)),
    (exec_of_idle _ hs).trans (congrArg _ (unpkRule_above_ceiling _ _ s hw))⟩

/-- Settles O32: IDX holds what the unpack has produced, and PK holds the words of the stream. -/
theorem unpkWcClosedForm : Obligations.UnpkWcClosedForm := fun s _ hs hw hw' =>
  ⟨_, exec_unpkWc_admitted hs hw hw', hs, rfl, fun _ hn => memRead_unpackWc_eq_wcValue s hw hw' hn⟩

/-- Settles O33: IDX holds what the unpack has produced. -/
theorem unpkNcClosedForm : Obligations.UnpkNcClosedForm := fun s _ hs hw hw' =>
  ⟨_, exec_unpkNc_admitted hs hw hw', hs, rfl, fun _ hn => memRead_unpackNc_eq_ncValue s hw hw' hn⟩

/-- Settles O39: the words of PK are those of the number the values are packed in. -/
theorem unpackReturnsWhatPackWcPacked : Obligations.UnpackReturnsWhatPackWcPacked := by
  intro s w v hs hw hw' hv hpacked
  refine ⟨_, exec_unpkWc_admitted hs hw hw', fun n hn => ?_⟩
  rw [memRead_unpackWc hw hw' (fun k hk => (hpacked k hk).trans (by rw [bitsAt, Nat.mul_comm])) hn,
    bitsAt_packedNumber hv hn]

/-- Settles O40: below the dropped bits a word of PK is the number its values are packed in. -/
theorem unpackReturnsWhatPackNcPacked : Obligations.UnpackReturnsWhatPackNcPacked := by
  intro s w v hs hw hw' hv hpacked
  refine ⟨_, exec_unpkNc_admitted hs hw hw', fun n hn => ?_⟩
  have hvpw := four_le_valuesPerWord hw hw'
  have hslot : n % (64 / w.toNat) < 64 / w.toNat := Nat.mod_lt n (by omega)
  have hplace : n / (64 / w.toNat) * (64 / w.toNat) + n % (64 / w.toNat) = n := Nat.div_add_mod' _ _
  rw [memRead_unpackNc_eq_ncValue s hw hw' hn, ncValue_eq_slot s hw hw' hn,
    hpacked _ (slot_of_value hw hw' hn).1, ncWordNumber_eq_packedNumber, bitsAt_packedNumber _ hslot, hplace,
    if_pos (by omega)]
  intro j _
  split
  · exact hv _ (by omega)
  · exact Nat.two_pow_pos _

/-- Settles O37: the words read determine the stream's bits below 4096w, and the bits not dropped determine the
slots. -/
theorem unpackIgnoresOtherBits : Obligations.UnpackIgnoresOtherBits := by
  intro s s' t t' w hs hs' hw hw'
  refine ⟨fun ht ht' hpk n hn => BitVec.eq_of_toNat_eq ?_, fun ht ht' hpk n hn => BitVec.eq_of_toNat_eq ?_⟩
  · cases ht.symm.trans (exec_unpkWc_admitted hs hw hw')
    cases ht'.symm.trans (exec_unpkWc_admitted hs' hw hw')
    have hstream : ∀ k < 64 * w.toNat, (memRead .pk k s').toNat = bitsAt (streamNumber s 1024) (k * 64) 64 :=
      fun k hk => by rw [hpk k hk, bitsAt_streamNumber s (by omega)]
    rw [memRead_unpackWc hw hw' hstream hn, memRead_unpackWc_eq_wcValue s hw hw' hn]
    rfl
  · cases ht.symm.trans (exec_unpkNc_admitted hs hw hw')
    cases ht'.symm.trans (exec_unpkNc_admitted hs' hw hw')
    have hlow : ∀ k < ncWords w.toNat, (memRead .pk k s').toNat % 2 ^ (64 / w.toNat * w.toNat) =
        (memRead .pk k s).toNat % 2 ^ (64 / w.toNat * w.toNat) := fun k hk => Nat.eq_of_testBit_eq fun b => by
      rw [Nat.testBit_mod_two_pow, Nat.testBit_mod_two_pow]
      by_cases hb : b < 64 / w.toNat * w.toNat
      · rw [BitVec.testBit_toNat, BitVec.testBit_toNat, hpk k hk b hb]
      · simp [hb]
    rw [memRead_unpackNc_eq_ncValue s' hw hw' hn, memRead_unpackNc_eq_ncValue s hw hw' hn, ncValue_eq_slot s' hw hw' hn,
      ncValue_eq_slot s hw hw' hn, hlow _ (slot_of_value hw hw' hn).1]

/-- A value whose place in the stream is its slot's place in its word is the same in both conventions (R109). -/
theorem wcValue_eq_ncValue {w n : Nat} (s : State) (hw : 4 ≤ w) (hw' : w ≤ 16) (hn : n < 4096)
    (hplace : n * w = n / (64 / w) * 64 + n % (64 / w) * w) : wcValue s w n = ncValue s w n := by
  obtain ⟨hword, hslot, hdropped⟩ := slot_of_value hw hw' hn
  calc wcValue s w n = bitsAt (streamNumber s 1024) (n / (64 / w) * 64 + n % (64 / w) * w) w := by rw [← hplace]; rfl
    _ = bitsAt (bitsAt (streamNumber s 1024) (n / (64 / w) * 64) 64) (n % (64 / w) * w) w :=
      (bitsAt_bitsAt (hslot.trans hdropped)).symm
    _ = ncValue s w n := by rw [bitsAt_streamNumber s (hword.trans_le (ncWords_le_pkWords hw hw'))]; rfl

/-- Settles O38: in the first word, and in every word without dropped bits, the places are the same. -/
theorem conventionsAgree : Obligations.ConventionsAgree := by
  intro s t t' w hs hw hw' ht ht'
  cases ht.symm.trans (exec_unpkWc_admitted hs hw hw')
  cases ht'.symm.trans (exec_unpkNc_admitted hs hw hw')
  have hagree : ∀ n < 4096, n * w.toNat = n / (64 / w.toNat) * 64 + n % (64 / w.toNat) * w.toNat →
      memRead .idx n (unpackNc w.toNat s) = memRead .idx n (unpackWc w.toNat s) := fun n hn hplace =>
    BitVec.eq_of_toNat_eq (by
      rw [memRead_unpackNc_eq_ncValue s hw hw' hn, memRead_unpackWc_eq_wcValue s hw hw' hn,
        wcValue_eq_ncValue s hw hw' hn hplace])
  have hfirst : 64 / w.toNat ≤ 64 := Nat.div_le_self 64 _
  refine ⟨fun n hn => hagree n (by omega) ?_, fun hdivides n hn => hagree n hn ?_⟩
  · rw [Nat.div_eq_of_lt hn, Nat.mod_eq_of_lt hn, Nat.zero_mul, Nat.zero_add]
  · rcases hdivides with rfl | rfl | rfl <;> simp <;> omega

end Sys2Proof.Machine
end

section
/-! SUPPORT. A DEC13 phase by phase: the width selected, the indices unpacked, and on a good section every cell counted
(R120, R124, R125). -/

namespace Sys2Proof.Machine

/-! ### The first two phases -/

theorem selectedWidth_toNat (maxpal : BitVec 16) (s : State) :
    (setWreg (widthSel maxpal) s).wreg.toNat = widthSel maxpal := by
  have hw := widthSel_range maxpal
  rw [setWreg_wreg, BitVec.toNat_ofNat, Nat.mod_eq_of_lt (by omega)]

/-- The loop of PACC runs on what the first two phases leave. -/
theorem dec13Rule_eq_palAcc (ysec : BitVec 8) (idlimit : BitVec 24) (maxpal : BitVec 16)
    (unpack : Nat → State → State) (s : State) : dec13Rule ysec idlimit maxpal unpack s =
      palAcc ysec idlimit maxpal (unpack (widthSel maxpal) (setWreg (widthSel maxpal) s)) := by
  rw [dec13Rule, selectedWidth_toNat]

/-- `u` is `s` with the width `w` selected and the indices `index` unpacked. -/
structure IndicesUnpacked (w : Nat) (index : Nat → Nat) (s u : State) : Prop where
  mode : u.mode = s.mode
  wreg : u.wreg.toNat = w
  outcnt : u.outcnt = 4096
  histCells : u.histCells = s.histCells
  reads : SameReadsBut [.idx] s u
  indices : ∀ n < 4096, storedIndex u n = index n

theorem Unpacked.indicesUnpacked {maxpal : BitVec 16} {index : Nat → Nat} {s u : State}
    (hu : Unpacked (setWreg (widthSel maxpal) s) u) (hindex : ∀ n < 4096, (memRead .idx n u).toNat = index n) :
    IndicesUnpacked (widthSel maxpal) index s u := by
  obtain ⟨hmode, -, -, hwreg, -⟩ := hu.registers
  refine ⟨hmode, hwreg ▸ selectedWidth_toNat maxpal s, ?_, hu.own.histCells, ?_, hindex⟩
  · obtain ⟨_, _, rfl⟩ := hu
    rfl
  · exact ((sameReadsBut_setWreg (widthSel maxpal) s).mono (by simp)).trans hu.reads

/-- With carry the indices are the values of the stream (R105, R124). -/
theorem indicesUnpacked_wc (maxpal : BitVec 16) (s : State) :
    IndicesUnpacked (widthSel maxpal) (wcValue s (widthSel maxpal)) s
      (unpackWc (widthSel maxpal) (setWreg (widthSel maxpal) s)) := by
  obtain ⟨hw, hw'⟩ := widthSel_range maxpal
  refine (unpackWc_unpacked _ _).indicesUnpacked fun n hn => memRead_unpackWc hw hw' (fun k hk => ?_) hn
  rw [memRead_setWreg, bitsAt_streamNumber s (by omega)]

/-- Without carry the indices are the slots of the words (R106, R125). -/
theorem indicesUnpacked_nc (maxpal : BitVec 16) (s : State) :
    IndicesUnpacked (widthSel maxpal) (ncValue s (widthSel maxpal)) s
      (unpackNc (widthSel maxpal) (setWreg (widthSel maxpal) s)) := by
  obtain ⟨hw, hw'⟩ := widthSel_range maxpal
  refine (unpackNc_unpacked _ _).indicesUnpacked fun n hn => ?_
  rw [memRead_unpackNc_eq_ncValue _ hw hw' hn, ncValue, memRead_setWreg, ncValue]

/-- The addresses of the cells are those the unpacked indices give in `s`. -/
theorem IndicesUnpacked.address_eq {w : Nat} {index : Nat → Nat} {s u : State} (h : IndicesUnpacked w index s u)
    (ysec : BitVec 8) (idlimit : BitVec 24) {i : Nat} (hi : i < 4096) :
    paletteAddress u ysec idlimit (storedIndex u) i = paletteAddress s ysec idlimit index i := by
  rw [paletteAddress, h.indices i hi, h.reads .pal (by decide), paletteAddress]

/-! ### The third phase -/

/-- Counting looks at the addresses of its cells alone. -/
theorem hits_congr {addr addr' : Nat → Nat} {n : Nat} (h : ∀ c < n, addr c = addr' c) (a : Nat) :
    hits addr n a = hits addr' n a :=
  List.countP_congr fun c hc => by rw [h c (List.mem_range.1 hc)]

/-- Cells counted after the first two phases are counted into the counters of `s`. -/
theorem IndicesUnpacked.countedInto {w n : Nat} {index : Nat → Nat} {s u t : State} (h : IndicesUnpacked w index s u)
    {ysec : BitVec 8} {idlimit : BitVec 24} (hn : n ≤ 4096)
    (ht : CountedInto (paletteAddress u ysec idlimit (storedIndex u)) n u t) :
    CountedInto (paletteAddress s ysec idlimit index) n s t := fun a => by
  rw [ht a, h.reads .hist (by decide), hits_congr fun c hc => h.address_eq ysec idlimit (hc.trans_le hn)]

/-- The loop of PACC on unpacked indices leaves the results of the first two phases (R25). -/
theorem IndicesUnpacked.palAcc_keeps {w : Nat} {index : Nat → Nat} {s u : State} (h : IndicesUnpacked w index s u)
    (ysec : BitVec 8) (idlimit : BitVec 24) (maxpal : BitVec 16) :
    (palAcc ysec idlimit maxpal u).wreg.toNat = w ∧ (palAcc ysec idlimit maxpal u).outcnt = 4096 ∧
      ∀ n < 4096, (memRead .idx n (palAcc ysec idlimit maxpal u)).toNat = index n := by
  have f := palAcc_frame ysec idlimit maxpal u
  refine ⟨by rw [f.wreg, h.wreg], by rw [f.outcnt, h.outcnt], fun n hn => ?_⟩
  rw [f.reads .idx (by decide)]
  exact h.indices n hn

/-- On indices in the palette whose counters are in the bank, the loop of PACC counts every cell. -/
theorem IndicesUnpacked.counts {w : Nat} {index : Nat → Nat} {s u : State} (h : IndicesUnpacked w index s u)
    {ysec : BitVec 8} {idlimit : BitVec 24} {maxpal : BitVec 16} (hs : s.mode = .idle)
    (hgood : ∀ i < 4096, index i ≤ maxpal.toNat ∧ paletteAddress s ysec idlimit index i < s.histCells) :
    (palAcc ysec idlimit maxpal u).mode = .idle ∧
      CountedInto (paletteAddress s ysec idlimit index) 4096 s (palAcc ysec idlimit maxpal u) := by
  have hgood' : ∀ i < 4096, storedIndex u i ≤ maxpal.toNat ∧
      paletteAddress u ysec idlimit (storedIndex u) i < u.histCells := fun i hi => by
    rw [h.address_eq ysec idlimit hi, h.indices i hi, h.histCells]
    exact hgood i hi
  obtain ⟨hidle, hcounted⟩ := palAcc_counts_every_cell (h.mode.trans hs) hgood'
  exact ⟨hidle, h.countedInto le_rfl hcounted.counts⟩

/-- A DEC13 that unpacks `index` does on a good section what its three phases do. -/
theorem IndicesUnpacked.dec13 {unpack : Nat → State → State} {index : Nat → Nat} {s : State} {maxpal : BitVec 16}
    (h : IndicesUnpacked (widthSel maxpal) index s (unpack (widthSel maxpal) (setWreg (widthSel maxpal) s)))
    {i : Instr} {ysec : BitVec 8} {idlimit : BitVec 24} (hs : s.mode = .idle)
    (hrule : commandRule i s = dec13Rule ysec idlimit maxpal unpack s)
    (hgood : ∀ i < 4096, index i ≤ maxpal.toNat ∧ paletteAddress s ysec idlimit index i < s.histCells) :
    ∃ t, exec i s = .next t ∧ t.mode = .idle ∧ t.wreg.toNat = widthSel maxpal ∧ t.outcnt = 4096 ∧
      (∀ n < 4096, (memRead .idx n t).toNat = index n) ∧
      CountedInto (paletteAddress s ysec idlimit index) 4096 s t := by
  obtain ⟨hidle, hcounted⟩ := h.counts hs hgood
  obtain ⟨hwreg, houtcnt, hidx⟩ := h.palAcc_keeps ysec idlimit maxpal
  have hexec := (exec_of_idle i hs).trans (congrArg _ (hrule.trans (dec13Rule_eq_palAcc ysec idlimit maxpal unpack s)))
  exact ⟨_, hexec, hidle, hwreg, houtcnt, hidx, hcounted⟩

/-- Settles O45: the indices are the values of the stream. -/
theorem dec13WcDecodesAndCounts : Obligations.Dec13WcDecodesAndCounts := fun s _ _ maxpal hs hgood =>
  (indicesUnpacked_wc maxpal s).dec13 hs rfl hgood

/-- Settles O47: the indices are the slots of the words. -/
theorem dec13NcDecodesAndCounts : Obligations.Dec13NcDecodesAndCounts := fun s _ _ maxpal hs hgood =>
  (indicesUnpacked_nc maxpal s).dec13 hs rfl hgood

end Sys2Proof.Machine
end

section
/-! SUPPORT. WSEL selects the least width that holds the palette (R120, R121), and a DEC13 is its three phases as commands
of their own (R124, R125). -/

namespace Sys2Proof.Machine

/-- The selected width holds every index up to maxpal: the fuel of the search is not what ends it. -/
theorem lt_two_pow_widthSel (maxpal : BitVec 16) : maxpal.toNat < 2 ^ widthSel maxpal := by
  obtain ⟨-, -, hholds, -⟩ := widthSearch_spec maxpal.toNat 12 Config.wMin
  exact hholds maxpal.isLt

/-- No smaller width of 4 or more holds every index up to maxpal. -/
theorem widthSel_le {maxpal : BitVec 16} {v : Nat} (hv : 4 ≤ v) (hholds : maxpal.toNat < 2 ^ v) :
    widthSel maxpal ≤ v := by
  obtain ⟨-, -, -, hleast⟩ := widthSearch_spec maxpal.toNat 12 Config.wMin
  exact not_lt.1 fun hlt => absurd hholds (not_lt.2 (hleast v hv hlt))

/-- Settles O42: WREG is the width the search ends with. -/
theorem wselSelectsTheSmallestWidth : Obligations.WselSelectsTheSmallestWidth := by
  intro s maxpal hs
  have hwreg := selectedWidth_toNat maxpal s
  obtain ⟨hmin, hmax⟩ := widthSel_range maxpal
  refine ⟨(setWreg (widthSel maxpal) s).wreg, exec_of_idle _ hs, hwreg, ?_⟩
  rw [hwreg]
  exact ⟨hmin, hmax, lt_two_pow_widthSel maxpal, fun _ hv hholds => widthSel_le hv hholds⟩

/-- A DEC13 is WSEL, an UNPK and PACC in a row, if the UNPK does after WSEL the unpack that the DEC13 has as its second
phase. -/
theorem dec13_eq_three_phases {s : State} {ysec : BitVec 8} {idlimit : BitVec 24} {maxpal : BitVec 16}
    {dec13 unpk : Instr} {unpack : Nat → State → State} (hs : s.mode = .idle)
    (hrule : commandRule dec13 s = dec13Rule ysec idlimit maxpal unpack s)
    (hunpk : exec unpk (setWreg (widthSel maxpal) s) = .next (unpack (widthSel maxpal) (setWreg (widthSel maxpal) s)))
    (hunpacked : ∀ w t, Unpacked t (unpack w t)) :
    ∃ t u, exec (.wsel maxpal) s = .next t ∧ exec unpk t = .next u ∧
      exec dec13 s = exec (.pacc ysec idlimit maxpal) u := by
  refine ⟨_, _, exec_of_idle _ hs, hunpk, ?_⟩
  obtain ⟨hmode, -⟩ := (hunpacked (widthSel maxpal) (setWreg (widthSel maxpal) s)).registers
  rw [exec_of_idle _ hs, hrule, dec13Rule_eq_palAcc, exec_of_idle _ (hmode.trans hs), commandRule]

/-- Settles O49: the selected width is one that an UNPK admits, and the unpack leaves the block idle. -/
theorem dec13IsItsThreePhases : Obligations.Dec13IsItsThreePhases := by
  intro s ysec idlimit maxpal hs
  have hwreg : (BitVec.ofNat 5 (widthSel maxpal)).toNat = widthSel maxpal := selectedWidth_toNat maxpal s
  obtain ⟨hmin, hmax⟩ := widthSel_range maxpal
  rw [← hwreg] at hmin hmax
  have hwc := exec_unpkWc_admitted (s := setWreg (widthSel maxpal) s) hs hmin hmax
  have hnc := exec_unpkNc_admitted (s := setWreg (widthSel maxpal) s) hs hmin hmax
  rw [hwreg] at hwc hnc
  exact ⟨dec13_eq_three_phases hs rfl hwc unpackWc_unpacked, dec13_eq_three_phases hs rfl hnc unpackNc_unpacked⟩

end Sys2Proof.Machine
end

section
/-! SUPPORT. The first bad cell of a PACC or a DEC13: its index is beyond the palette, else its counter is outside the bank
(R122, R123, R140, R142, R146). -/

namespace Sys2Proof.Machine

/-- Cell `k` is counted: its index is in the palette and its counter in the bank. -/
def CellGood (s : State) (ysec : BitVec 8) (idlimit : BitVec 24) (maxpal : BitVec 16) (index : Nat → Nat)
    (k : Nat) : Prop :=
  index k ≤ maxpal.toNat ∧ paletteAddress s ysec idlimit index k < s.histCells

/-- Cell `k` faults with the given CAUSE and FVAL; the palette is tested before the bank. -/
inductive CellFaults (s : State) (ysec : BitVec 8) (idlimit : BitVec 24) (maxpal : BitVec 16) (index : Nat → Nat)
    (k : Nat) : Cause → Word → Prop
  | palOob (h : maxpal.toNat < index k) :
      CellFaults s ysec idlimit maxpal index k .palOob (BitVec.ofNat 64 (index k))
  | histOob (h : index k ≤ maxpal.toNat) (hout : s.histCells ≤ paletteAddress s ysec idlimit index k) :
      CellFaults s ysec idlimit maxpal index k .histOob
        (BitVec.ofNat 64 (paletteAddress s ysec idlimit index k))

section
variable {s u : State} {ysec : BitVec 8} {idlimit : BitVec 24} {maxpal : BitVec 16} {index : Nat → Nat} {k : Nat}
  {cause : Cause} {val : Word}

/-- A bad cell of PACC raises its fault, whatever stands in HIST. -/
theorem CellFaults.paccCell_raises (hbad : CellFaults s ysec idlimit maxpal (storedIndex s) k cause val)
    (h : Memory 64) : paccCell ysec idlimit maxpal k { s with hist := h } =
      raise cause (BitVec.ofNat 15 k) val { s with hist := h } := by
  cases hbad with
  | palOob hbeyond =>
    have hindex : (memRead .idx k { s with hist := h }).toNat = storedIndex s k :=
      congrArg BitVec.toNat (sameReadsBut_withHist s h .idx (by decide) k)
    rw [paccCell, hindex, if_pos hbeyond]
  | histOob hindex hout =>
    rw [paccCell_withHist s ysec idlimit maxpal k h hindex]
    exact histInc_outside _ _ _ hout

/-- The loop of PACC faults at its first bad cell, with the cells before it counted. -/
theorem CellFaults.palAcc_faults (hbad : CellFaults s ysec idlimit maxpal (storedIndex s) k cause val)
    (hs : s.mode = .idle) (hk : k < 4096) (hgood : ∀ i < k, CellGood s ysec idlimit maxpal (storedIndex s) i) :
    FaultTaken cause (BitVec.ofNat 15 k) val (palAcc ysec idlimit maxpal s) ∧
      CountedInto (paletteAddress s ysec idlimit (storedIndex s)) k s (palAcc ysec idlimit maxpal s) := by
  obtain ⟨t, hcounted, hloop⟩ := forCells_first_fault (paccCell ysec idlimit maxpal) _ 4096 k s _ _ _ hs hk
    (fun c hc h => paccCell_withHist s ysec idlimit maxpal c h (hgood c hc).1) (fun c hc => (hgood c hc).2)
    hbad.paccCell_raises
  rw [palAcc, hloop]
  exact ⟨faultTaken_raise _ _ _ t, hcounted.counts.raise _ _ _⟩

/-! ### DEC13 -/

/-- A cell is as good after the first two phases as the unpacked indices say. -/
theorem IndicesUnpacked.cellGood {w : Nat} (h : IndicesUnpacked w index s u) (hk : k < 4096)
    (hgood : CellGood s ysec idlimit maxpal index k) : CellGood u ysec idlimit maxpal (storedIndex u) k := by
  rw [CellGood, h.address_eq ysec idlimit hk, h.indices k hk, h.histCells]
  exact hgood

/-- A cell faults after the first two phases as the unpacked indices say. -/
theorem IndicesUnpacked.cellFaults {w : Nat} (h : IndicesUnpacked w index s u) (hk : k < 4096)
    (hbad : CellFaults s ysec idlimit maxpal index k cause val) :
    CellFaults u ysec idlimit maxpal (storedIndex u) k cause val := by
  have hindex := h.indices k hk
  have haddress := h.address_eq ysec idlimit hk
  cases hbad with
  | palOob hbeyond => exact hindex ▸ .palOob (hindex.symm ▸ hbeyond)
  | histOob hin hout =>
    exact haddress ▸ .histOob (hindex.symm ▸ hin) (by rw [haddress, h.histCells]; exact hout)

/-- The loop of PACC on unpacked indices faults at their first bad cell, with the cells before it counted into the
counters of `s`. -/
theorem IndicesUnpacked.faults {w : Nat} (h : IndicesUnpacked w index s u) (hs : s.mode = .idle) (hk : k < 4096)
    (hgood : ∀ i < k, CellGood s ysec idlimit maxpal index i)
    (hbad : CellFaults s ysec idlimit maxpal index k cause val) :
    FaultTaken cause (BitVec.ofNat 15 k) val (palAcc ysec idlimit maxpal u) ∧
      CountedInto (paletteAddress s ysec idlimit index) k s (palAcc ysec idlimit maxpal u) := by
  obtain ⟨hfault, hcounted⟩ := (h.cellFaults hk hbad).palAcc_faults (h.mode.trans hs) hk fun i hi =>
    h.cellGood (hi.trans hk) (hgood i hi)
  exact ⟨hfault, h.countedInto hk.le hcounted⟩

/-- A DEC13 that unpacks `index` faults at the first bad cell, with the first two phases complete. -/
theorem IndicesUnpacked.dec13_faults {unpack : Nat → State → State}
    (h : IndicesUnpacked (widthSel maxpal) index s (unpack (widthSel maxpal) (setWreg (widthSel maxpal) s)))
    {i : Instr} (hs : s.mode = .idle) (hrule : commandRule i s = dec13Rule ysec idlimit maxpal unpack s)
    (hk : k < 4096) (hgood : ∀ i < k, CellGood s ysec idlimit maxpal index i)
    (hbad : maxpal.toNat < index k ∨ s.histCells ≤ paletteAddress s ysec idlimit index k) :
    ∃ t, exec i s = .next t ∧
      (if maxpal.toNat < index k then FaultTaken .palOob (BitVec.ofNat 15 k) (BitVec.ofNat 64 (index k)) t
      else FaultTaken .histOob (BitVec.ofNat 15 k) (BitVec.ofNat 64 (paletteAddress s ysec idlimit index k)) t) ∧
      t.wreg.toNat = widthSel maxpal ∧ t.outcnt = 4096 ∧ (∀ n < 4096, (memRead .idx n t).toNat = index n) ∧
      CountedInto (paletteAddress s ysec idlimit index) k s t := by
  have hexec := (exec_of_idle i hs).trans (congrArg _ (hrule.trans (dec13Rule_eq_palAcc ysec idlimit maxpal unpack s)))
  obtain ⟨hwreg, houtcnt, hidx⟩ := h.palAcc_keeps ysec idlimit maxpal
  by_cases hbeyond : maxpal.toNat < index k
  · obtain ⟨hfault, hcounted⟩ := h.faults hs hk hgood (.palOob hbeyond)
    exact ⟨_, hexec, by rwa [if_pos hbeyond], hwreg, houtcnt, hidx, hcounted⟩
  · obtain ⟨hfault, hcounted⟩ := h.faults hs hk hgood (.histOob (not_lt.1 hbeyond) (hbad.resolve_left hbeyond))
    exact ⟨_, hexec, by rwa [if_neg hbeyond], hwreg, houtcnt, hidx, hcounted⟩

end

/-- Settles O44: the two kinds of bad cell are the two clauses. -/
theorem paccFaultsAtFirstBadCell : Obligations.PaccFaultsAtFirstBadCell := by
  intro s ysec idlimit maxpal k hs hk hgood
  exact ⟨fun h => ⟨_, exec_of_idle _ hs, (CellFaults.palOob h).palAcc_faults hs hk hgood⟩,
    fun h hout => ⟨_, exec_of_idle _ hs, (CellFaults.histOob h hout).palAcc_faults hs hk hgood⟩⟩

/-- Settles O46: the indices are the values of the stream. -/
theorem dec13WcFaultsAtFirstBadCell : Obligations.Dec13WcFaultsAtFirstBadCell := fun s _ _ maxpal _ hs hk =>
  (indicesUnpacked_wc maxpal s).dec13_faults hs rfl hk

/-- Settles O48: the indices are the slots of the words. -/
theorem dec13NcFaultsAtFirstBadCell : Obligations.Dec13NcFaultsAtFirstBadCell := fun s _ _ maxpal _ hs hk =>
  (indicesUnpacked_nc maxpal s).dec13_faults hs rfl hk

end Sys2Proof.Machine
end

section
/-! SUPPORT. A block in MODE = 1: commands are discarded, host accesses work, and reset alone leads out (R144, R145). -/

namespace Sys2Proof.Machine

/-- Settles O19: no command runs its rule in MODE = 1. -/
theorem nothingExecutesInFault : Obligations.NothingExecutesInFault := by
  intro i s hs
  rw [exec_eq_whenIdle, whenIdle, if_pos hs]

theorem issue_of_fault (x : Word) {s : State} (hs : s.mode = .fault) : issue x s = .next s := if_pos hs

/-- Settles O11: MODE is looked at by the issue of a word and by no other host action. -/
theorem faultModeDiscardsCommandsOnly : Obligations.FaultModeDiscardsCommandsOnly := by
  intro s rest hs
  obtain ⟨_, hreadCsr, _⟩ := registerNumbers
  refine ⟨fun x hp => ?_, fun m i v hp hi hv => ?_, fun m i hp hi => ?_, fun n hp => hreadCsr s n rest hp⟩
  · rw [step_issues hp]
    exact issue_of_fault x hs
  · rw [step_action s _ rest hp]
    exact hostWrite_inside (by simpa using hi) hv
  · rw [step_action s _ rest hp, perform, hostRead_inside (by simpa using hi), memRead_withPending]

theorem step_reset {s : State} {rest : List HostAction} (hp : s.pending = .reset :: rest) :
    step s = .next (takeReset { s with pending := rest }) := step_action s _ rest hp

/-- The host port's own fields are no registers. -/
theorem sameRegisters_hostFields (s : State) (p : List HostAction) (a : Option HostAnswer) :
    SameRegisters s { s with pending := p, answer := a } := ⟨rfl, rfl, rfl, rfl, rfl, rfl, rfl⟩

/-- A step from MODE = 1 that is not a reset has written at most the host port's own fields and one memory entry. -/
theorem sameRegisters_of_step_fault {s t : State} (hs : s.mode = .fault) (h : step s = .next t)
    (hno : ∀ rest, s.pending ≠ .reset :: rest) : SameRegisters s t := by
  rcases step_next_cases h with ⟨p, a, rfl⟩ | ⟨rest, m, i, v, _, rfl⟩ | ⟨rest, hp, _⟩ | ⟨_, _, _, hidle, _⟩
  · exact sameRegisters_hostFields s p a
  · exact (sameRegisters_hostFields s rest s.answer).memWrite m i v
  · exact absurd hp (hno rest)
  · cases hs.symm.trans hidle

/-- A reset clears registers only, so every memory reads as before (R160). -/
theorem sameReadsBut_takeReset (s : State) (rest : List HostAction) :
    SameReadsBut [] s (takeReset { s with pending := rest }) :=
  fun m _ i => (memRead_takeReset _ m i).trans (memRead_withPending s rest m i)

/-- Settles O54: of all that a step can do in MODE = 1, only reset writes a register. -/
theorem faultLastsUntilReset : Obligations.FaultLastsUntilReset := by
  intro s t hs h
  refine ⟨sameRegisters_of_step_fault hs h, fun rest hp => ?_⟩
  cases (step_reset hp).symm.trans h
  exact ⟨rfl, rfl, rfl, rfl, rfl, rfl, rfl, sameReadsBut_takeReset s rest⟩

end Sys2Proof.Machine
end

section
/-! SUPPORT. Reset (R160), and the registers no command reads (R161): what a command does to every memory and to the fault
record is the same whatever UW, WREG and OUTCNT hold when it begins. -/

namespace Sys2Proof.Machine

/-- Settles O12: `takeReset` does not look at MODE. -/
theorem resetClearsTheRegistersOnly : Obligations.ResetClearsTheRegistersOnly := fun _ _ hp => step_reset hp

/-- `t` is `s` but for what UW, WREG and OUTCNT (R15, R16, R17) hold. -/
def SameButFlags (s t : State) : Prop :=
  ∃ uw wreg outcnt, t = { s with uw := uw, wreg := wreg, outcnt := outcnt }

theorem SameButFlags.mode_eq {s t : State} (h : SameButFlags s t) : t.mode = s.mode := by
  obtain ⟨_, _, _, rfl⟩ := h
  rfl

/-! ### The operations of a command -/

theorem SameButFlags.raise {s t : State} (h : SameButFlags s t) (cause : Cause) (info : BitVec 15) (val : Word) :
    SameButFlags (raise cause info val s) (raise cause info val t) := by
  obtain ⟨_, _, _, rfl⟩ := h
  exact ⟨_, _, _, rfl⟩

theorem SameButFlags.flagUnsupportedWidth {s t : State} (h : SameButFlags s t) :
    SameButFlags (flagUnsupportedWidth s) (flagUnsupportedWidth t) := by
  obtain ⟨_, _, _, rfl⟩ := h
  exact ⟨_, _, _, rfl⟩

theorem SameButFlags.setWreg {s t : State} (h : SameButFlags s t) (w : Nat) :
    SameButFlags (setWreg w s) (setWreg w t) := by
  obtain ⟨_, _, _, rfl⟩ := h
  exact ⟨_, _, _, rfl⟩

theorem SameButFlags.unpackInto {s t : State} (h : SameButFlags s t) (takeWord : Word → Bsu → Bsu) :
    SameButFlags (unpackInto takeWord s) (unpackInto takeWord t) := by
  obtain ⟨_, _, _, rfl⟩ := h
  exact ⟨_, _, _, rfl⟩

theorem SameButFlags.histInc {s t : State} (h : SameButFlags s t) (a c : Nat) :
    SameButFlags (histInc a c s) (histInc a c t) := by
  obtain ⟨uw, wreg, outcnt, rfl⟩ := h
  rcases Nat.lt_or_ge a s.histCells with ha | ha
  · rw [histInc_inside a c s ha, histInc_inside a c { s with uw := uw, wreg := wreg, outcnt := outcnt } ha]
    exact ⟨_, _, _, rfl⟩
  · rw [histInc_outside a c s ha, histInc_outside a c { s with uw := uw, wreg := wreg, outcnt := outcnt } ha]
    exact ⟨_, _, _, rfl⟩

/-! ### The cells of the counting commands -/

theorem SameButFlags.dec0Cell {s t : State} (h : SameButFlags s t) (c : Nat) :
    SameButFlags (dec0Cell c s) (dec0Cell c t) := by
  have haddr : dec0Addr c t = dec0Addr c s := by
    obtain ⟨_, _, _, rfl⟩ := h
    rfl
  rw [Machine.dec0Cell, Machine.dec0Cell, haddr]
  exact h.histInc _ c

theorem SameButFlags.dec2Cell {s t : State} (h : SameButFlags s t) (ysec : BitVec 8) (idlimit : BitVec 24) (c : Nat) :
    SameButFlags (dec2Cell ysec idlimit c s) (dec2Cell ysec idlimit c t) := by
  have haddr : dec2Addr ysec idlimit c t = dec2Addr ysec idlimit c s := by
    obtain ⟨_, _, _, rfl⟩ := h
    rfl
  rw [Machine.dec2Cell, Machine.dec2Cell, haddr]
  exact h.histInc _ c

theorem SameButFlags.paccCell {s t : State} (h : SameButFlags s t) (ysec : BitVec 8) (idlimit : BitVec 24)
    (maxpal : BitVec 16) (i : Nat) :
    SameButFlags (paccCell ysec idlimit maxpal i s) (paccCell ysec idlimit maxpal i t) := by
  have hidx : memRead .idx i t = memRead .idx i s := by
    obtain ⟨_, _, _, rfl⟩ := h
    rfl
  have haddr : ∀ li, paccAddr ysec idlimit i li t = paccAddr ysec idlimit i li s := by
    obtain ⟨_, _, _, rfl⟩ := h
    exact fun _ => rfl
  simp only [Machine.paccCell, hidx, haddr]
  split
  · exact h.raise _ _ _
  · exact h.histInc _ i

/-- Two runs of a loop fault at the same cell, since MODE is not among the registers that may differ. -/
theorem SameButFlags.forCells {cell : Nat → State → State}
    (hcell : ∀ {s t : State}, SameButFlags s t → ∀ c, SameButFlags (cell c s) (cell c t)) (n c : Nat) {s t : State}
    (h : SameButFlags s t) : SameButFlags (forCells cell n c s) (forCells cell n c t) := by
  induction n generalizing c s t with
  | zero => exact h
  | succ n ih =>
    have hc := hcell h c
    simp only [Machine.forCells, hc.mode_eq]
    split
    · exact hc
    · exact ih (c + 1) hc

theorem SameButFlags.palAcc {s t : State} (h : SameButFlags s t) (ysec : BitVec 8) (idlimit : BitVec 24)
    (maxpal : BitVec 16) : SameButFlags (palAcc ysec idlimit maxpal s) (palAcc ysec idlimit maxpal t) :=
  .forCells (fun h' => h'.paccCell ysec idlimit maxpal) _ _ h

/-! ### The commands -/

theorem SameButFlags.unpkRule {unpack : Nat → State → State} {s t : State} (h : SameButFlags s t)
    (hunpack : ∀ w, SameButFlags (unpack w s) (unpack w t)) (command : Instr) (w : BitVec 5) :
    SameButFlags (unpkRule command w unpack s) (unpkRule command w unpack t) := by
  rw [Machine.unpkRule, Machine.unpkRule]
  split
  · exact h.raise _ _ _
  · split
    · exact h.flagUnsupportedWidth
    · exact hunpack _

/-- The WREG that a DEC13 reads is the one it has written itself. -/
theorem SameButFlags.dec13Rule {unpack : Nat → State → State} {s t : State} (h : SameButFlags s t)
    (hunpack : ∀ {s t : State}, SameButFlags s t → ∀ w, SameButFlags (unpack w s) (unpack w t))
    (ysec : BitVec 8) (idlimit : BitVec 24) (maxpal : BitVec 16) :
    SameButFlags (dec13Rule ysec idlimit maxpal unpack s) (dec13Rule ysec idlimit maxpal unpack t) := by
  rw [dec13Rule_eq_palAcc, dec13Rule_eq_palAcc]
  exact (hunpack (h.setWreg _) _).palAcc ysec idlimit maxpal

theorem SameButFlags.commandRule {s t : State} (h : SameButFlags s t) (i : Instr) :
    SameButFlags (commandRule i s) (commandRule i t) := by
  cases i with
  | dec0 => exact .forCells SameButFlags.dec0Cell _ _ h
  | dec2 ysec idlimit => exact .forCells (fun h' => h'.dec2Cell ysec idlimit) _ _ h
  | dec13Wc ysec idlimit maxpal => exact h.dec13Rule (fun h' w => h'.unpackInto (wcWord w)) ysec idlimit maxpal
  | dec13Nc ysec idlimit maxpal => exact h.dec13Rule (fun h' w => h'.unpackInto (ncWord w)) ysec idlimit maxpal
  | unpkWc w => exact h.unpkRule (fun w => h.unpackInto (wcWord w)) _ w
  | unpkNc w => exact h.unpkRule (fun w => h.unpackInto (ncWord w)) _ w
  | wsel maxpal => exact h.setWreg _
  | pacc ysec idlimit maxpal => exact h.palAcc ysec idlimit maxpal

/-- Both runs of a command answer a next state, and these differ in UW, WREG and OUTCNT at most. -/
theorem SameButFlags.exec {s t : State} (h : SameButFlags s t) (i : Instr) :
    ∃ u v, exec i s = .next u ∧ exec i t = .next v ∧ SameButFlags u v := by
  refine ⟨_, _, exec_eq_whenIdle i s, exec_eq_whenIdle i t, ?_⟩
  rw [h.mode_eq]
  split
  · exact h
  · exact h.commandRule i

/-- Settles O56: two runs that start alike but for UW, WREG and OUTCNT end alike but for them. -/
theorem commandsDoNotReadTheRegisters : Obligations.CommandsDoNotReadTheRegisters := by
  intro i s uw wreg outcnt
  have h : SameButFlags s { s with uw := uw, wreg := wreg, outcnt := outcnt } := ⟨uw, wreg, outcnt, rfl⟩
  obtain ⟨u, v, hu, hv, _, _, _, rfl⟩ := h.exec i
  exact ⟨u, _, hu, hv, fun m => by cases m <;> rfl, rfl, rfl, rfl, rfl⟩

end Sys2Proof.Machine
end
